-- ==== Sys2Proof/Word.lean ====
section
/-! DEFINITION. The machine word and the small value types every other file uses. -/

namespace Sys2Proof

/-- A register, a memory cell, an address, an instruction, a character code: 16 bits (00_scope.md R6, R7, D14). -/
abbrev Word := BitVec 16

/-- A byte of a program image, a character half of PUTSP, a trap vector (30_encoding.md R95). -/
abbrev Byte := BitVec 8

/-- A 3-bit register index naming R0..R7 (30_encoding.md R96). -/
abbrev RegIdx := BitVec 3

/-- The condition code: exactly one of NEG, ZERO, POS (10_state.md R26). -/
inductive CondCode where
  /-- N: the last flag-updating result had bit 15 set. -/
  | n
  /-- Z: the last flag-updating result was zero. -/
  | z
  /-- P: neither. -/
  | p
deriving DecidableEq, Repr

end Sys2Proof
end

