-- ==== Sys2Proof/Syntax.lean ====
section
/-! DEFINITION. The instructions: one constructor for every row of spec/opcode_table.json, its sub-rows
(six trap services, RET) among them. -/

namespace Sys2Proof

/-- A decoded instruction. Each constructor is one row of spec/opcode_table.json and carries the fields of
30_encoding.md R92 that the instruction reads; bits R104 calls ignored are not carried. -/
inductive Instr where
  /-- BR: the mask n z p (`ir[11:9]`) and PCoffset9 (43_control_transfer.md R180). -/
  | br (mask : BitVec 3) (off : BitVec 9)
  /-- ADD, register form (41_operate.md R141). -/
  | addReg (dr sr1 sr2 : RegIdx)
  /-- ADD, immediate form (41_operate.md R141). -/
  | addImm (dr sr1 : RegIdx) (imm : BitVec 5)
  /-- LD (42_data_movement.md R160). -/
  | ld (dr : RegIdx) (off : BitVec 9)
  /-- ST (42_data_movement.md R164). -/
  | st (sr : RegIdx) (off : BitVec 9)
  /-- JSRR (43_control_transfer.md R183). -/
  | jsrr (base : RegIdx)
  /-- JSR (43_control_transfer.md R182). -/
  | jsr (off : BitVec 11)
  /-- AND, register form (41_operate.md R142). -/
  | andReg (dr sr1 sr2 : RegIdx)
  /-- AND, immediate form (41_operate.md R142). -/
  | andImm (dr sr1 : RegIdx) (imm : BitVec 5)
  /-- LDR (42_data_movement.md R162). -/
  | ldr (dr base : RegIdx) (off : BitVec 6)
  /-- STR (42_data_movement.md R166). -/
  | str (sr base : RegIdx) (off : BitVec 6)
  /-- Opcode 8, reserved, RTI by convention (40_control_unit.md R126). -/
  | res8
  /-- NOT (41_operate.md R143). -/
  | not (dr sr : RegIdx)
  /-- LDI (42_data_movement.md R161). -/
  | ldi (dr : RegIdx) (off : BitVec 9)
  /-- STI (42_data_movement.md R165). -/
  | sti (sr : RegIdx) (off : BitVec 9)
  /-- JMP through a base register other than R7 (43_control_transfer.md R181). -/
  | jmp (base : RegIdx)
  /-- Opcode 13, reserved (40_control_unit.md R126). -/
  | res13
  /-- LEA (42_data_movement.md R163). -/
  | lea (dr : RegIdx) (off : BitVec 9)
  /-- TRAP with a vector that names no service (44_trap.md R200, R209). -/
  | trap (vect : Byte)
  /-- TRAP x20, GETC (44_trap.md R202). -/
  | trapGetc
  /-- TRAP x21, OUT (44_trap.md R207). -/
  | trapOut
  /-- TRAP x22, PUTS (44_trap.md R204). -/
  | trapPuts
  /-- TRAP x23, IN (44_trap.md R205). -/
  | trapIn
  /-- TRAP x24, PUTSP (44_trap.md R206). -/
  | trapPutsp
  /-- TRAP x25, HALT (44_trap.md R208). -/
  | trapHalt
  /-- RET, which is JMP with BaseR = 7 (43_control_transfer.md R181). -/
  | ret
deriving DecidableEq, Repr

end Sys2Proof
end

