-- ==== Sys2Proof/WellFormed.lean ====
section
/-! DEFINITION. Which terms of `Instr` stand for an encoding of their own.
Field widths are in the types; what is left is that `jmp` and `trap` leave to `ret` and to the six services
the words that spec/opcode_table.json gives those rows (log 10). -/

namespace Sys2Proof

/-- The six vectors of 30_encoding.md R99: 0x20 to 0x25. -/
def isServiceVector (v : Byte) : Bool := decide (0x20#8 ≤ v) && decide (v ≤ 0x25#8)

/-- A term is well formed when the table has a row for it: JMP R7 is RET's, a service's vector is the service's. -/
def Instr.wellFormed : Instr → Bool
  | .br _ _ => true
  | .addReg _ _ _ => true
  | .addImm _ _ _ => true
  | .ld _ _ => true
  | .st _ _ => true
  | .jsrr _ => true
  | .jsr _ => true
  | .andReg _ _ _ => true
  | .andImm _ _ _ => true
  | .ldr _ _ _ => true
  | .str _ _ _ => true
  | .res8 => true
  | .not _ _ => true
  | .ldi _ _ => true
  | .sti _ _ => true
  | .jmp base => decide (base ≠ 7#3)
  | .res13 => true
  | .lea _ _ => true
  | .trap vect => !isServiceVector vect
  | .trapGetc => true
  | .trapOut => true
  | .trapPuts => true
  | .trapIn => true
  | .trapPutsp => true
  | .trapHalt => true
  | .ret => true

end Sys2Proof
end

