-- ==== Sys2Proof/Decode.lean ====
section
/-! DEFINITION. The decoder of 30_encoding.md R105, total on every word; then the encoder, the table's fixed
bits of each row, and the bits an instruction reads. No word is illegal (R91), so the decoder refuses none. -/

namespace Sys2Proof

/-- DR, and SR of the stores: `ir[11:9]` (30_encoding.md R92). -/
abbrev fieldDR (ir : Word) : RegIdx := ir.extractLsb' 9 3
/-- SR1, SR of NOT, BaseR: `ir[8:6]` (R92). -/
abbrev fieldSR1 (ir : Word) : RegIdx := ir.extractLsb' 6 3
/-- SR2: `ir[2:0]` (R92). -/
abbrev fieldSR2 (ir : Word) : RegIdx := ir.extractLsb' 0 3
/-- imm5: `ir[4:0]` (R92). -/
abbrev fieldImm5 (ir : Word) : BitVec 5 := ir.extractLsb' 0 5
/-- offset6: `ir[5:0]` (R92). -/
abbrev fieldOff6 (ir : Word) : BitVec 6 := ir.extractLsb' 0 6
/-- PCoffset9: `ir[8:0]` (R92). -/
abbrev fieldOff9 (ir : Word) : BitVec 9 := ir.extractLsb' 0 9
/-- PCoffset11: `ir[10:0]` (R92). -/
abbrev fieldOff11 (ir : Word) : BitVec 11 := ir.extractLsb' 0 11
/-- trapvect8: `ir[7:0]` (R92, R95). -/
abbrev fieldVect (ir : Word) : Byte := ir.extractLsb' 0 8
/-- The opcode: `ir[15:12]` (R91). -/
abbrev fieldOpcode (ir : Word) : BitVec 4 := ir.extractLsb' 12 4

/-- The row of TRAP that a vector selects (30_encoding.md R99; 44_trap.md R200). -/
def decodeTrap (v : Byte) : Instr :=
  if v = 0x20#8 then .trapGetc
  else if v = 0x21#8 then .trapOut
  else if v = 0x22#8 then .trapPuts
  else if v = 0x23#8 then .trapIn
  else if v = 0x24#8 then .trapPutsp
  else if v = 0x25#8 then .trapHalt
  else .trap v

/-- The row of JMP that a base register selects: RET is JMP with BaseR = 7 (43_control_transfer.md R181). -/
def decodeJmp (base : RegIdx) : Instr := if base = 7#3 then .ret else .jmp base

/-- The decoder, in the order of 30_encoding.md R105's cases; the last case is opcode 0xF. -/
def decode (ir : Word) : Instr :=
  if fieldOpcode ir = 0x0#4 then .br (fieldDR ir) (fieldOff9 ir)
  else if fieldOpcode ir = 0x1#4 then
    if ir.getLsbD 5 then .addImm (fieldDR ir) (fieldSR1 ir) (fieldImm5 ir)
    else .addReg (fieldDR ir) (fieldSR1 ir) (fieldSR2 ir)
  else if fieldOpcode ir = 0x2#4 then .ld (fieldDR ir) (fieldOff9 ir)
  else if fieldOpcode ir = 0x3#4 then .st (fieldDR ir) (fieldOff9 ir)
  else if fieldOpcode ir = 0x4#4 then
    if ir.getLsbD 11 then .jsr (fieldOff11 ir) else .jsrr (fieldSR1 ir)
  else if fieldOpcode ir = 0x5#4 then
    if ir.getLsbD 5 then .andImm (fieldDR ir) (fieldSR1 ir) (fieldImm5 ir)
    else .andReg (fieldDR ir) (fieldSR1 ir) (fieldSR2 ir)
  else if fieldOpcode ir = 0x6#4 then .ldr (fieldDR ir) (fieldSR1 ir) (fieldOff6 ir)
  else if fieldOpcode ir = 0x7#4 then .str (fieldDR ir) (fieldSR1 ir) (fieldOff6 ir)
  else if fieldOpcode ir = 0x8#4 then .res8
  else if fieldOpcode ir = 0x9#4 then .not (fieldDR ir) (fieldSR1 ir)
  else if fieldOpcode ir = 0xA#4 then .ldi (fieldDR ir) (fieldOff9 ir)
  else if fieldOpcode ir = 0xB#4 then .sti (fieldDR ir) (fieldOff9 ir)
  else if fieldOpcode ir = 0xC#4 then decodeJmp (fieldSR1 ir)
  else if fieldOpcode ir = 0xD#4 then .res13
  else if fieldOpcode ir = 0xE#4 then .lea (fieldDR ir) (fieldOff9 ir)
  else decodeTrap (fieldVect ir)

/-- The decoder on a word numbered as spec/opcode_table.json numbers it. An instruction is one 16-bit word
(30_encoding.md R90), so a length above 16 bits is no instruction of this block; bits above the length are 0. -/
def decodeTableWord (nbits w : Nat) : Option Instr :=
  if nbits ≤ 16 then some (decode (BitVec.ofNat 16 (w % 2 ^ nbits))) else none

/-- The word of an instruction, by the formats of 30_encoding.md R93. Ignored bits are written as 0
(DESIGN CHOICE, log 9: the block ignores them whatever they hold, R104). -/
def encode : Instr → Word
  | .br mask off => 0x0#4 ++ mask ++ off
  | .addReg dr sr1 sr2 => 0x1#4 ++ dr ++ sr1 ++ 0b000#3 ++ sr2
  | .addImm dr sr1 imm => 0x1#4 ++ dr ++ sr1 ++ 0b1#1 ++ imm
  | .ld dr off => 0x2#4 ++ dr ++ off
  | .st sr off => 0x3#4 ++ sr ++ off
  | .jsrr base => 0x4#4 ++ 0b000#3 ++ base ++ 0b000000#6
  | .jsr off => 0x4#4 ++ 0b1#1 ++ off
  | .andReg dr sr1 sr2 => 0x5#4 ++ dr ++ sr1 ++ 0b000#3 ++ sr2
  | .andImm dr sr1 imm => 0x5#4 ++ dr ++ sr1 ++ 0b1#1 ++ imm
  | .ldr dr base off => 0x6#4 ++ dr ++ base ++ off
  | .str sr base off => 0x7#4 ++ sr ++ base ++ off
  | .res8 => 0x8#4 ++ 0x000#12
  | .not dr sr => 0x9#4 ++ dr ++ sr ++ 0b000000#6
  | .ldi dr off => 0xA#4 ++ dr ++ off
  | .sti sr off => 0xB#4 ++ sr ++ off
  | .jmp base => 0xC#4 ++ 0b000#3 ++ base ++ 0b000000#6
  | .res13 => 0xD#4 ++ 0x000#12
  | .lea dr off => 0xE#4 ++ dr ++ off
  | .trap vect => 0xF#4 ++ 0x0#4 ++ vect
  | .trapGetc => 0xF020#16
  | .trapOut => 0xF021#16
  | .trapPuts => 0xF022#16
  | .trapIn => 0xF023#16
  | .trapPutsp => 0xF024#16
  | .trapHalt => 0xF025#16
  | .ret => 0xC1C0#16

/-- One row of spec/opcode_table.json: a word is the row's when its bits under the mask are the match. -/
structure TableRow where
  /-- The fixed bits' places. -/
  mask : Word
  /-- The fixed bits' values. -/
  pattern : Word
deriving DecidableEq, Repr

/-- Whether a word meets a row. -/
def TableRow.meets (r : TableRow) (w : Word) : Bool := decide (w &&& r.mask = r.pattern)

/-- The row of spec/opcode_table.json that an instruction stands for (its `mask` and `match`). -/
def Instr.row : Instr → TableRow
  | .br _ _ => ⟨0xF000, 0x0000⟩
  | .addReg _ _ _ => ⟨0xF020, 0x1000⟩
  | .addImm _ _ _ => ⟨0xF020, 0x1020⟩
  | .ld _ _ => ⟨0xF000, 0x2000⟩
  | .st _ _ => ⟨0xF000, 0x3000⟩
  | .jsrr _ => ⟨0xF800, 0x4000⟩
  | .jsr _ => ⟨0xF800, 0x4800⟩
  | .andReg _ _ _ => ⟨0xF020, 0x5000⟩
  | .andImm _ _ _ => ⟨0xF020, 0x5020⟩
  | .ldr _ _ _ => ⟨0xF000, 0x6000⟩
  | .str _ _ _ => ⟨0xF000, 0x7000⟩
  | .res8 => ⟨0xF000, 0x8000⟩
  | .not _ _ => ⟨0xF000, 0x9000⟩
  | .ldi _ _ => ⟨0xF000, 0xA000⟩
  | .sti _ _ => ⟨0xF000, 0xB000⟩
  | .jmp _ => ⟨0xF000, 0xC000⟩
  | .res13 => ⟨0xF000, 0xD000⟩
  | .lea _ _ => ⟨0xF000, 0xE000⟩
  | .trap _ => ⟨0xF000, 0xF000⟩
  | .trapGetc => ⟨0xF0FF, 0xF020⟩
  | .trapOut => ⟨0xF0FF, 0xF021⟩
  | .trapPuts => ⟨0xF0FF, 0xF022⟩
  | .trapIn => ⟨0xF0FF, 0xF023⟩
  | .trapPutsp => ⟨0xF0FF, 0xF024⟩
  | .trapHalt => ⟨0xF0FF, 0xF025⟩
  | .ret => ⟨0xF1C0, 0xC1C0⟩

/-- The rows of spec/opcode_table.json that are not sub-rows of another (the rows of 30_encoding.md R98). -/
def mainRows : List TableRow :=
  [⟨0xF000, 0x0000⟩, ⟨0xF020, 0x1000⟩, ⟨0xF020, 0x1020⟩, ⟨0xF000, 0x2000⟩, ⟨0xF000, 0x3000⟩,
   ⟨0xF800, 0x4000⟩, ⟨0xF800, 0x4800⟩, ⟨0xF020, 0x5000⟩, ⟨0xF020, 0x5020⟩, ⟨0xF000, 0x6000⟩] ++
  [⟨0xF000, 0x7000⟩, ⟨0xF000, 0x8000⟩, ⟨0xF000, 0x9000⟩, ⟨0xF000, 0xA000⟩, ⟨0xF000, 0xB000⟩,
   ⟨0xF000, 0xC000⟩, ⟨0xF000, 0xD000⟩, ⟨0xF000, 0xE000⟩, ⟨0xF000, 0xF000⟩]

/-- The bits of its word that an instruction reads; the others are the `x` bits of 30_encoding.md R93 (R104). -/
def Instr.readBits : Instr → Word
  | .br _ _ => 0xFFFF
  | .addReg _ _ _ => 0xFFE7
  | .addImm _ _ _ => 0xFFFF
  | .ld _ _ => 0xFFFF
  | .st _ _ => 0xFFFF
  | .jsrr _ => 0xF9C0
  | .jsr _ => 0xFFFF
  | .andReg _ _ _ => 0xFFE7
  | .andImm _ _ _ => 0xFFFF
  | .ldr _ _ _ => 0xFFFF
  | .str _ _ _ => 0xFFFF
  | .res8 => 0xF000
  | .not _ _ => 0xFFC0
  | .ldi _ _ => 0xFFFF
  | .sti _ _ => 0xFFFF
  | .jmp _ => 0xF1C0
  | .res13 => 0xF000
  | .lea _ _ => 0xFFFF
  | .trap _ => 0xF0FF
  | .trapGetc => 0xF0FF
  | .trapOut => 0xF0FF
  | .trapPuts => 0xF0FF
  | .trapIn => 0xF0FF
  | .trapPutsp => 0xF0FF
  | .trapHalt => 0xF0FF
  | .ret => 0xF1C0

end Sys2Proof
end

