-- ==== Sys2Proof/Config.lean ====
section
/-! DEFINITION. The parameters of 00_scope.md R6, fixed for the machine, and the model's own bound on one step. -/

namespace Sys2Proof

/-- The four parameters a model takes as configuration fields, with the default values of 00_scope.md R6.
DESIGN CHOICE of the spec itself (92_eei_decisions.md D2, D3, D11, D13): the source leaves each open. Logs 6 and 7. -/
structure Config where
  /-- AND_SETS_CC: whether AND updates the condition code (41_operate.md R142). -/
  andSetsCC : Bool := false
  /-- TRAP_STUB_MODE: whether IN and PUTSP are no-ops (44_trap.md R205, R206). -/
  trapStubMode : Bool := false
  /-- GPR_RESET: the reset value of each of R0..R7 (10_state.md R22). -/
  gprReset : Word := 0x0000
  /-- CC_RESET: the reset value of the condition code (10_state.md R28). -/
  ccReset : CondCode := .z
deriving DecidableEq, Repr

/-- The block with its default parameters; `Machine.exec` and `Machine.step` are this block's. -/
def Config.block : Config := {}

/-- How many words of a PUTS or PUTSP string one step reads before the rest is left to the next step.
DESIGN CHOICE (log 4): 44_trap.md R204 and R206 put no bound on the loop, and a string longer than this goes on
in the next step from where it stood, so the bound changes how the work is cut into steps and nothing else. -/
def Config.wordsPerStep : Nat := 65536

end Sys2Proof
end

