-- ==== Sys2Proof/Machine/State.lean ====
section
/-! DEFINITION. The state of the block as plain data, and its value right after reset. -/

namespace Sys2Proof.Machine

/-- The memory array as a list of (address, word) cells: 65,536 cells of one 16-bit word (20_memory.md R50).
Addresses strictly rise and no listed cell holds what an unlisted one reads as (`Memory.wf` in Ops.lean).
A cell holds a word because the word is the smallest unit and has no byte order (20_memory.md R52; log 1). -/
abbrev Memory := List (Nat × Word)

/-- What the Input Relay does next (20_memory.md R70, R71). The model's own type (log 3). -/
inductive RelayEvent where
  /-- The relay pushes one character code to the tail of Q (R70). -/
  | push (c : Word)
  /-- The relay requests a halt and stops itself (R71). -/
  | halt
  /-- The relay does nothing more before the block's next access to Q or `running` (40_control_unit.md R128). -/
  | pass
deriving DecidableEq, Repr

/-- Where the block stands. The model's own type (log 4): one step does not always finish a cycle. -/
inductive Activity where
  /-- Between two cycles: the next step begins with the halt check (40_control_unit.md R121). -/
  | betweenCycles
  /-- Holding in GETC's wait (44_trap.md R203). -/
  | waitGetc
  /-- Holding in IN's wait (44_trap.md R203, R205). -/
  | waitIn
  /-- Inside PUTS, about to read the word at this address (44_trap.md R204). -/
  | puts (a : Word)
  /-- Inside PUTSP, about to read the word at this address (44_trap.md R206). -/
  | putsp (a : Word)
  /-- Past the halt check that found `running` false: the run is over (40_control_unit.md R130). -/
  | runOver
deriving DecidableEq, Repr

/-- Every piece of state the spec gives the block (10_state.md §1; the output of 20_memory.md R72), and the
model's own `activity` and `relay`. -/
structure State where
  /-- R0..R7 (10_state.md R20). -/
  regs : Vector Word 8
  /-- The program counter (10_state.md R23). -/
  pc : Word
  /-- The condition code (10_state.md R26). -/
  cc : CondCode
  /-- The running flag (10_state.md R29). -/
  running : Bool
  /-- The keystroke queue Q, oldest first (10_state.md R30). -/
  queue : List Word
  /-- The keyboard availability latch (10_state.md R31). -/
  kbAvail : Bool
  /-- The memory array, the device cells among it (10_state.md R32; 20_memory.md R54). -/
  mem : Memory
  /-- The instruction register (10_state.md R34). -/
  ir : Word
  /-- The output surface, oldest first (20_memory.md R72). -/
  output : List Word
  /-- Where the block stands (the model's own; log 4). -/
  activity : Activity
  /-- The Input Relay's coming actions, first to come first (the model's own; log 3). -/
  relay : List RelayEvent
deriving DecidableEq, Repr

/-- The reasons a step can stop with a fault: none, since "No runtime faults are modeled" and the block raises
no exception (60_exceptions.md R230; log 12). The type has no constructor, so no step can fault. -/
inductive Fault where
deriving DecidableEq, Repr

/-- The reasons a step can be refused. -/
inductive Refusal where
  /-- Raised by an arm of `exec` whose instruction has no meaning yet, under its table mnemonic; safe.
  No arm raises it: every instruction of the table has its meaning. -/
  | notModelled (mnemonic : String)
deriving DecidableEq, Repr

/-- What one step or one instruction answers. -/
abbrev Result := Host.Outcome State Fault Refusal

/-- The state after reset for given parameters (70_reset_and_hazards.md R260), before the image is loaded.
`ir` has no reset value in the spec: 0x0000 is a DESIGN CHOICE (log 2). `activity` and `relay` are the model's
own: between cycles (log 4) and no relay action to come (log 3), each a DESIGN CHOICE. -/
def State.resetWith (cfg : Config) : State where
  regs := Vector.replicate 8 cfg.gprReset
  pc := 0x3000
  cc := cfg.ccReset
  running := true
  queue := []
  kbAvail := false
  mem := []
  ir := 0x0000
  output := []
  activity := .betweenCycles
  relay := []

/-- The machine right after reset, with the default parameters (70_reset_and_hazards.md R260; log 6). -/
def State.reset : State := State.resetWith Config.block

end Sys2Proof.Machine
end

