-- ==== Sys2Proof/Machine/Ops.lean ====
section
/-! DEFINITION. The named operations over memory, registers, the device registers, the keystroke queue and the
output surface, and the Input Relay's actions. Every meaning and the cycle are built from these. -/

namespace Sys2Proof.Machine

/-! ### The memory array -/

/-- What an unlisted cell reads as: memory is "zero-initialized" (10_state.md R32; 20_memory.md R50). -/
def Memory.unlisted : Word := 0x0000

/-- The raw word `mem[a]` (00_scope.md R10), with no side effect. -/
def Memory.read : Memory → Nat → Word
  | [], _ => Memory.unlisted
  | (k, v) :: rest, a => if k = a then v else Memory.read rest a

/-- One cell as a piece of the list: nothing when the word is what an unlisted cell reads as. -/
def Memory.cell (a : Nat) (v : Word) : Memory := if v = Memory.unlisted then [] else [(a, v)]

/-- A plain store of one word, keeping the canonical form (20_memory.md R58). -/
def Memory.write : Memory → Nat → Word → Memory
  | [], a, v => Memory.cell a v
  | (k, x) :: rest, a, v =>
    if a < k then Memory.cell a v ++ (k, x) :: rest
    else if a = k then Memory.cell a v ++ rest
    else (k, x) :: Memory.write rest a v

/-- The canonical form: addresses inside the 65,536-word space and strictly rising, no listed cell holding what
an unlisted one reads as. -/
def Memory.wf : Memory → Bool
  | [] => true
  | (k, v) :: rest =>
    decide (k < 65536) && decide (v ≠ Memory.unlisted) && rest.all (fun c => decide (k < c.1)) && Memory.wf rest

/-! ### Registers and cells of a state -/

/-- `x[i]`, a read of general register Ri (00_scope.md R10; no register is hardwired, 10_state.md R20). -/
def State.getReg (s : State) (i : RegIdx) : Word := s.regs[i.toNat]

/-- `x[i] <- v` (00_scope.md R10). -/
def State.setReg (s : State) (i : RegIdx) (v : Word) : State := { s with regs := s.regs.set i.toNat v }

/-- `pc <- target` (10_state.md R24). -/
def State.setPc (s : State) (target : Word) : State := { s with pc := target }

/-- `mem[a]`, the raw stored word, without side effects (00_scope.md R10). -/
def State.cell (s : State) (a : Word) : Word := s.mem.read a.toNat

/-- `mem[a] <- v`, a plain store (20_memory.md R58). -/
def State.setCell (s : State) (a v : Word) : State := { s with mem := s.mem.write a.toNat v }

/-- `Output(c)` (00_scope.md R12; 20_memory.md R72). -/
def State.emit (s : State) (c : Word) : State := { s with output := s.output ++ [c] }

/-- The end of an instruction: the block stands between two cycles again. -/
def State.finish (s : State) : State := { s with activity := .betweenCycles }

/-! ### The Input Relay -/

/-- Key push: the relay appends one code to the tail of Q (20_memory.md R70; a push never drops, D24). -/
def State.pushKey (s : State) (c : Word) : State := { s with queue := s.queue ++ [c] }

/-- Halt request: `running <- false`, and the relay "pushes nothing afterwards" (20_memory.md R71). -/
def State.haltRequest (s : State) : State := { s with running := false, relay := [] }

/-- One action of the relay, `rest` being what it does after it. -/
def State.relayAct (s : State) (rest : List RelayEvent) : RelayEvent → State
  | .push c => { s.pushKey c with relay := rest }
  | .halt => s.haltRequest
  | .pass => { s with relay := rest }

/-- The relay's actions up to the first `pass`, in their order. -/
def relayRun : List RelayEvent → State → State
  | [], s => { s with relay := [] }
  | .push c :: rest, s => relayRun rest (s.relayAct rest (.push c))
  | .halt :: rest, s => s.relayAct rest .halt
  | .pass :: rest, s => s.relayAct rest .pass

/-- A point between two of the block's accesses to Q or `running`, where the relay may act (40_control_unit.md
R128; log 3): what the list `relay` holds for this point happens now. -/
def State.relayPoint (s : State) : State := relayRun s.relay s

/-! ### The device registers -/

/-- The status register's address (20_memory.md R54). -/
def kbsr : Word := 0xFE00

/-- The data register's address (20_memory.md R54). -/
def kbdr : Word := 0xFE02

/-- A word with bit 15, the ready bit, set or cleared and bits 14:0 kept (20_memory.md R55). -/
def withReady (w : Word) (ready : Bool) : Word := (w &&& 0x7FFF) ||| (if ready then 0x8000 else 0x0000)

/-- The ready bit as stored: bit 15 of `mem[0xFE00]` (20_memory.md R55). -/
def State.ready (s : State) : Bool := (s.cell kbsr).getLsbD 15

/-- `mem[0xFE00][15] <- ready` (20_memory.md R55). -/
def State.setReady (s : State) (ready : Bool) : State := s.setCell kbsr (withReady (s.cell kbsr) ready)

/-- A character is delivered into the data register: `mem[0xFE02] <- c`, `kb_avail <- 1` (10_state.md R31). -/
def State.deliver (s : State) (c : Word) : State := { s.setCell kbdr c with kbAvail := true }

/-- The first half of a status read: a pending key is delivered when the previous one has been consumed
(20_memory.md R56). -/
def State.deliverPending (s : State) : State :=
  match s.kbAvail, s.queue with
  | false, c :: rest => { s with queue := rest }.deliver c
  | _, _ => s

/-- `MemRead(0xFE00, 1)`: the word read and the state after (20_memory.md R56). -/
def State.statusRead (s : State) : Word × State :=
  let t := s.deliverPending.setReady s.deliverPending.kbAvail
  (t.cell kbsr, t)

/-- `MemRead(0xFE02, 1)`: the word read and the state after (20_memory.md R57). -/
def State.dataRead (s : State) : Word × State := (s.cell kbdr, { s with kbAvail := false })

/-- `MemRead(a, 1)` (20_memory.md R56, R57, R59). -/
def State.memRead (s : State) (a : Word) : Word × State :=
  if a = kbsr then s.statusRead else if a = kbdr then s.dataRead else (s.cell a, s)

/-- `MemWrite(a, 1, v)`: a plain store at every address, the device registers included (20_memory.md R58). -/
def State.memWrite (s : State) (a v : Word) : State := s.setCell a v

/-- A read the block makes. A status read accesses Q, so the relay may act just before it (40_control_unit.md
R128); then it is `MemRead` (20_memory.md R60). -/
def State.blockRead (s : State) (a : Word) : Word × State :=
  (if a = kbsr then s.relayPoint else s).memRead a

/-! ### The cycle's drain and fetch -/

/-- The drain: at most one key, only when the ready bit as stored is clear; the cells are accessed directly
(40_control_unit.md R122). -/
def State.drain (s : State) : State :=
  match s.queue with
  | [] => s
  | c :: rest => if s.ready then s else ({ s with queue := rest }.deliver c).setReady true

/-- The fetch: `ir <- MemRead(pc, 1)`, then `pc <- pc + 1` mod 2^16 (40_control_unit.md R123). -/
def State.fetch (s : State) : State :=
  { (s.blockRead s.pc).2 with ir := (s.blockRead s.pc).1, pc := s.pc + 1 }

/-! ### Waiting for a key -/

/-- How a look at GETC's and IN's wait ends (44_trap.md R202, R203). -/
inductive KeyWait where
  /-- A key was popped: its code and the state after. -/
  | key (c : Word) (s : State)
  /-- `running` is false: the service returns with no pop. -/
  | halted (s : State)
  /-- Neither, and the relay has nothing more to do: the wait holds. -/
  | holding (s : State)
deriving DecidableEq, Repr

/-- The exit of the wait, tested and taken in one atomic step: `running` false returns with no pop, a non-empty
Q gives its oldest code (44_trap.md R202, statement by statement; log 5). -/
def State.keyNow (s : State) : KeyWait :=
  if s.running = false then .halted s
  else match s.queue with
    | c :: rest => .key c { s with queue := rest }
    | [] => .holding s

/-- The wait: the relay's actions are taken one at a time and the exit is tested after each, so "a halt request
and a key push that both arrive during a GETC or IN wait are taken in the order they occur" (60_exceptions.md
R232(d)). -/
def awaitKey : List RelayEvent → State → KeyWait
  | [], s => s.keyNow
  | e :: rest, s =>
    match s.keyNow with
    | .holding t => awaitKey rest (t.relayAct rest e)
    | w => w

/-- A held wait goes on. It held on an empty Q, and the relay pushes nothing after a halt request (20_memory.md R71),
so a key found in Q now was pushed first and is popped, whatever `running` is by now (60_exceptions.md R232(d); log 3);
with Q still empty the wait looks again. -/
def resumeKey (s : State) : KeyWait :=
  match s.queue with
  | c :: rest => .key c { s with queue := rest }
  | [] => awaitKey s.relay s

end Sys2Proof.Machine
end

