-- ==== Sys2Proof/Machine/Operands.lean ====
section
/-! DEFINITION. Immediates, operands and effective addresses. -/

namespace Sys2Proof.Machine

/-- `sext_n(v)` (00_scope.md R8; 30_encoding.md R94: no scaling, addresses count words). -/
def sext {n : Nat} (v : BitVec n) : Word := v.signExtend 16

/-- `zext(v)` of a byte (00_scope.md R8). -/
def zext (v : Byte) : Word := v.zeroExtend 16

/-- The low byte of a word, `w[7:0]` (44_trap.md R206). -/
def lowByte (w : Word) : Byte := w.extractLsb' 0 8

/-- The high byte of a word, `w[15:8]` (44_trap.md R206). -/
def highByte (w : Word) : Byte := w.extractLsb' 8 8

/-- PC-relative: `pc + sext_9(PCoffset9)`, `pc` being the incremented one (42_data_movement.md R159). -/
def State.pcRel9 (s : State) (off : BitVec 9) : Word := s.pc + sext off

/-- JSR's target: `pc + sext_11(PCoffset11)` (43_control_transfer.md R182). -/
def State.pcRel11 (s : State) (off : BitVec 11) : Word := s.pc + sext off

/-- Base plus offset: `x[BaseR] + sext_6(offset6)` (42_data_movement.md R159). -/
def State.baseOff6 (s : State) (base : RegIdx) (off : BitVec 6) : Word := s.getReg base + sext off

/-- PC-relative indirect: the pointer read, `MemRead(pc + sext_9(PCoffset9), 1)`, and the state after it
(42_data_movement.md R159). -/
def State.pointer9 (s : State) (off : BitVec 9) : Word × State := s.blockRead (s.pcRel9 off)

end Sys2Proof.Machine
end

