-- ==== Sys2Proof/Machine/Flags.lean ====
section
/-! DEFINITION. The condition code: its one writer and its one reader. -/

namespace Sys2Proof.Machine

/-- The condition code of a 16-bit value (41_operate.md R140). -/
def ccOf (v : Word) : CondCode := if v = 0x0000 then .z else if v.getLsbD 15 then .n else .p

/-- `setFlags(i)`: cc from register Ri after it has been written (41_operate.md R140). -/
def State.setFlags (s : State) (i : RegIdx) : State := { s with cc := ccOf (s.getReg i) }

/-- The write of a result register by an instruction that updates flags (10_state.md R27). -/
def State.setResult (s : State) (dr : RegIdx) (v : Word) : State := (s.setReg dr v).setFlags dr

/-- The one-hot encoding N = 0b100, Z = 0b010, P = 0b001 (10_state.md R26). -/
def ccBits : CondCode → BitVec 3
  | .n => 0b100
  | .z => 0b010
  | .p => 0b001

/-- The branch test `(ir[11:9] & ccbits) != 0` (43_control_transfer.md R180). -/
def State.branchTaken (s : State) (mask : BitVec 3) : Bool := decide (mask &&& ccBits s.cc ≠ 0#3)

end Sys2Proof.Machine
end

