-- ==== Sys2Proof/Machine/Trap.lean ====
section
/-! DEFINITION. TRAP and the trap vector dispatcher (44_trap.md). A service runs inside the TRAP's execute step:
its entry saves nothing, changes no mode and transfers control nowhere, and it returns by completing
(60_exceptions.md R233, R234). A GETC or IN wait that nothing lifts yet, and a string longer than one step reads,
are left in `activity` and go on in the next step (log 4). -/

namespace Sys2Proof.Machine

/-! ### GETC and IN -/

/-- GETC's end (R202): the code goes to R0, with no echo; a halted wait returns; a held wait holds. -/
def getcEnd : KeyWait → State
  | .key c s => (s.setReg 0#3 c).finish
  | .halted s => s.finish
  | .holding s => { s with activity := .waitGetc }

/-- GETC (R202): the relay may act before the first look at Q (40_control_unit.md R128), then the wait. -/
def getcService (s : State) : State := getcEnd (awaitKey s.relayPoint.relay s.relayPoint)

/-- A held GETC goes on (R203). -/
def getcResume (s : State) : State := getcEnd (resumeKey s)

/-- IN's end (R205): the code goes to R0 and is echoed. -/
def inEnd : KeyWait → State
  | .key c s => ((s.setReg 0#3 c).emit c).finish
  | .halted s => s.finish
  | .holding s => { s with activity := .waitIn }

/-- IN for given parameters (R205): with TRAP_STUB_MODE it is a no-op. -/
def inService (cfg : Config) (s : State) : State :=
  if cfg.trapStubMode then s else inEnd (awaitKey s.relayPoint.relay s.relayPoint)

/-- A held IN goes on (R203). -/
def inResume (s : State) : State := inEnd (resumeKey s)

/-! ### OUT, PUTS, PUTSP, HALT -/

/-- OUT (R207): the whole 16-bit value of R0. -/
def outService (s : State) : State := s.emit (s.getReg 0#3)

/-- PUTS's loop from address `a`, at most so many words in this step (R204). -/
def putsLoop : Nat → Word → State → State
  | 0, a, s => { s with activity := .puts a }
  | n + 1, a, s =>
    if (s.blockRead a).1 = 0x0000 then (s.blockRead a).2.finish
    else putsLoop n (a + 1) ((s.blockRead a).2.emit (s.blockRead a).1)

/-- PUTS (R204): from the address in R0. -/
def putsService (s : State) : State := putsLoop Config.wordsPerStep (s.getReg 0#3) s

/-- A PUTS that one step did not finish goes on at `a`. -/
def putsResume (a : Word) (s : State) : State := putsLoop Config.wordsPerStep a s

/-- PUTSP's loop from address `a`, at most so many words in this step (R206): low byte first, a zero byte stops. -/
def putspLoop : Nat → Word → State → State
  | 0, a, s => { s with activity := .putsp a }
  | n + 1, a, s =>
    if lowByte (s.blockRead a).1 = 0x00 then (s.blockRead a).2.finish
    else if highByte (s.blockRead a).1 = 0x00 then
      ((s.blockRead a).2.emit (zext (lowByte (s.blockRead a).1))).finish
    else
      putspLoop n (a + 1)
        (((s.blockRead a).2.emit (zext (lowByte (s.blockRead a).1))).emit (zext (highByte (s.blockRead a).1)))

/-- PUTSP for given parameters (R206): with TRAP_STUB_MODE it is a no-op. -/
def putspService (cfg : Config) (s : State) : State :=
  if cfg.trapStubMode then s else putspLoop Config.wordsPerStep (s.getReg 0#3) s

/-- A PUTSP that one step did not finish goes on at `a`. -/
def putspResume (a : Word) (s : State) : State := putspLoop Config.wordsPerStep a s

/-- HALT (R208): `running <- false`, nothing else. -/
def haltService (s : State) : State := { s with running := false }

/-! ### The dispatcher -/

/-- The trap vector dispatcher (R200): the service of the vector, or nothing (R209). -/
def trapDispatch (cfg : Config) (v : Byte) (s : State) : State :=
  if v = 0x20#8 then getcService s
  else if v = 0x21#8 then outService s
  else if v = 0x22#8 then putsService s
  else if v = 0x23#8 then inService cfg s
  else if v = 0x24#8 then putspService cfg s
  else if v = 0x25#8 then haltService s
  else s

/-- TRAP (R200). -/
def execTrap (v : Byte) (s : State) : Result := .next (trapDispatch Config.block v s)

/-- TRAP x20 (R202). -/
def execTrapGetc (s : State) : Result := .next (getcService s)

/-- TRAP x21 (R207). -/
def execTrapOut (s : State) : Result := .next (outService s)

/-- TRAP x22 (R204). -/
def execTrapPuts (s : State) : Result := .next (putsService s)

/-- TRAP x23 (R205). -/
def execTrapIn (s : State) : Result := .next (inService Config.block s)

/-- TRAP x24 (R206). -/
def execTrapPutsp (s : State) : Result := .next (putspService Config.block s)

/-- TRAP x25 (R208). -/
def execTrapHalt (s : State) : Result := .next (haltService s)

end Sys2Proof.Machine
end

