-- ==== Sys2Proof/Machine/Cycle.lean ====
section
/-! DEFINITION. What comes before the execute step of a cycle: halt check, drain, fetch, decode
(40_control_unit.md R120), and the going on of an instruction that the last step did not finish. -/

namespace Sys2Proof.Machine

/-- What a step does: end with a state at once, or execute an instruction at a state. -/
inductive Plan where
  /-- No instruction is dispatched in this step. -/
  | stay (s : State)
  /-- This instruction is executed at this state. -/
  | run (i : Instr) (s : State)
deriving DecidableEq, Repr

/-- Drain, fetch and decode of a cycle whose halt check found `running` true (R120, steps 2 to 4). The relay may
act between the halt check and the drain (R128). -/
def State.drainFetch (s : State) : State := s.relayPoint.drain.fetch

/-- A cycle's beginning (R120, R121): the relay may act before the halt check (R128); when `running` is false no
further step of the cycle happens and the run is over (log 11 on keys that come then). -/
def State.beginCycle (s : State) : Plan :=
  if s.relayPoint.running then .run (decode s.relayPoint.drainFetch.ir) s.relayPoint.drainFetch
  else .stay { s.relayPoint with activity := .runOver }

/-- The plan of the next step. A run that is over stays as it is (40_control_unit.md R130; 60_exceptions.md R245). -/
def State.plan (s : State) : Plan :=
  match s.activity with
  | .betweenCycles => s.beginCycle
  | .waitGetc => .stay (getcResume s)
  | .waitIn => .stay (inResume s)
  | .puts a => .stay (putsResume a s)
  | .putsp a => .stay (putspResume a s)
  | .runOver => .stay s

/-! ### Placing an instruction where the next step fetches it -/

/-- Whether the relay's next actions hold a halt request before the first `pass`, that is before the halt check. -/
def haltsAtOnce : List RelayEvent → Bool
  | [] => false
  | .push _ :: rest => haltsAtOnce rest
  | .halt :: _ => true
  | .pass :: _ => false

/-- What a fetch from an ordinary cell needs: the block between two cycles and running, and no halt request before
the halt check. -/
def State.readyToFetch (s : State) : State :=
  { s with activity := .betweenCycles, running := true, relay := if haltsAtOnce s.relay then [] else s.relay }

/-- What a fetch from a device cell needs besides: no key to be drained or delivered over the placed word, and an
availability that leaves a status word's bit 15 as placed (20_memory.md R56). -/
def State.quietKeyboard (s : State) (w : Word) : State :=
  if s.pc = kbsr then { s with queue := [], relay := [], kbAvail := w.getLsbD 15 }
  else if s.pc = kbdr then { s with queue := [], relay := [] }
  else s

/-- The state whose next step fetches and runs the word `w`. -/
def State.placeWord (s : State) (w : Word) : State := (s.readyToFetch.quietKeyboard w).setCell s.pc w

end Sys2Proof.Machine
end

