-- ==== Sys2Proof/Machine/Control.lean ====
section
/-! DEFINITION. Control transfer (43_control_transfer.md) and the reserved opcodes (40_control_unit.md R126).
`pc` is the incremented one. -/

namespace Sys2Proof.Machine

/-- BR (R180). -/
def execBr (mask : BitVec 3) (off : BitVec 9) (s : State) : Result :=
  .next (if s.branchTaken mask then s.setPc (s.pcRel9 off) else s)

/-- JMP (R181). -/
def execJmp (base : RegIdx) (s : State) : Result := .next (s.setPc (s.getReg base))

/-- RET, JMP with BaseR = 7 (R181). -/
def execRet (s : State) : Result := .next (s.setPc (s.getReg 7#3))

/-- JSR (R182): R7 gets the return address; the target is relative to the same incremented `pc`. -/
def execJsr (off : BitVec 11) (s : State) : Result := .next ((s.setReg 7#3 s.pc).setPc (s.pcRel11 off))

/-- JSRR (R183): the base is read after R7 has been written (D21). -/
def execJsrr (base : RegIdx) (s : State) : Result :=
  .next ((s.setReg 7#3 s.pc).setPc ((s.setReg 7#3 s.pc).getReg base))

/-- Opcode 8 (40_control_unit.md R126): nothing but the fetch's increment. -/
def execRes8 (s : State) : Result := .next s

/-- Opcode 13 (40_control_unit.md R126): nothing but the fetch's increment. -/
def execRes13 (s : State) : Result := .next s

end Sys2Proof.Machine
end

