-- ==== Sys2Proof/Machine/DataMovement.lean ====
section
/-! DEFINITION. Loads, stores and LEA (42_data_movement.md). Every read is the block's read, with the device
registers' side effects; every store is plain (20_memory.md R58, R60). -/

namespace Sys2Proof.Machine

/-- `x[DR] <- MemRead(ea, 1)`, then `setFlags(DR)`. -/
def State.loadInto (s : State) (dr : RegIdx) (ea : Word) : State :=
  (s.blockRead ea).2.setResult dr (s.blockRead ea).1

/-- LD (R160). -/
def execLd (dr : RegIdx) (off : BitVec 9) (s : State) : Result := .next (s.loadInto dr (s.pcRel9 off))

/-- LDI (R161): the pointer read, then the read it points at. -/
def execLdi (dr : RegIdx) (off : BitVec 9) (s : State) : Result :=
  .next ((s.pointer9 off).2.loadInto dr (s.pointer9 off).1)

/-- LDR (R162): the base is read before DR is written. -/
def execLdr (dr base : RegIdx) (off : BitVec 6) (s : State) : Result :=
  .next (s.loadInto dr (s.baseOff6 base off))

/-- LEA (R163): no memory access; cc from the address. -/
def execLea (dr : RegIdx) (off : BitVec 9) (s : State) : Result := .next (s.setResult dr (s.pcRel9 off))

/-- ST (R164). -/
def execSt (sr : RegIdx) (off : BitVec 9) (s : State) : Result :=
  .next (s.memWrite (s.pcRel9 off) (s.getReg sr))

/-- STI (R165): the pointer read has its side effects, the store is plain. -/
def execSti (sr : RegIdx) (off : BitVec 9) (s : State) : Result :=
  .next ((s.pointer9 off).2.memWrite (s.pointer9 off).1 ((s.pointer9 off).2.getReg sr))

/-- STR (R166). -/
def execStr (sr base : RegIdx) (off : BitVec 6) (s : State) : Result :=
  .next (s.memWrite (s.baseOff6 base off) (s.getReg sr))

end Sys2Proof.Machine
end

