-- ==== Sys2Proof/Machine/Operate.lean ====
section
/-! DEFINITION. The operate instructions: ADD, AND, NOT (41_operate.md). -/

namespace Sys2Proof.Machine

/-- ADD, register form (R141): sources are read before DR is written. -/
def execAddReg (dr sr1 sr2 : RegIdx) (s : State) : Result :=
  .next (s.setResult dr (s.getReg sr1 + s.getReg sr2))

/-- ADD, immediate form (R141). -/
def execAddImm (dr sr1 : RegIdx) (imm : BitVec 5) (s : State) : Result :=
  .next (s.setResult dr (s.getReg sr1 + sext imm))

/-- AND's write for given parameters: `if AND_SETS_CC: setFlags(DR)` (R142). -/
def andInto (cfg : Config) (dr : RegIdx) (v : Word) (s : State) : State :=
  if cfg.andSetsCC then s.setResult dr v else s.setReg dr v

/-- AND, register form, for given parameters (R142). -/
def andRegWith (cfg : Config) (dr sr1 sr2 : RegIdx) (s : State) : State :=
  andInto cfg dr (s.getReg sr1 &&& s.getReg sr2) s

/-- AND, immediate form, for given parameters (R142). -/
def andImmWith (cfg : Config) (dr sr1 : RegIdx) (imm : BitVec 5) (s : State) : State :=
  andInto cfg dr (s.getReg sr1 &&& sext imm) s

/-- AND, register form (R142). -/
def execAndReg (dr sr1 sr2 : RegIdx) (s : State) : Result := .next (andRegWith Config.block dr sr1 sr2 s)

/-- AND, immediate form (R142). -/
def execAndImm (dr sr1 : RegIdx) (imm : BitVec 5) (s : State) : Result :=
  .next (andImmWith Config.block dr sr1 imm s)

/-- NOT (R143): cc is that of the complement, not of the input. -/
def execNot (dr sr : RegIdx) (s : State) : Result := .next (s.setResult dr (~~~ (s.getReg sr)))

end Sys2Proof.Machine
end

