-- ==== Sys2Proof/Machine/Step.lean ====
section
/-! DEFINITION. One step: a cycle of the Control Unit, or the going on of a cycle the last step did not finish. -/

namespace Sys2Proof.Machine

/-- One step (40_control_unit.md R120): the plan's state, or the execution of the fetched instruction. -/
def step (s : State) : Host.Outcome State Fault Refusal :=
  match s.plan with
  | .stay t => .next t
  | .run i t => exec i t

/-- `s` with an instruction word where `step` fetches its next instruction; every instruction is one 16-bit word
(30_encoding.md R90), and bits above `nbits` are 0. -/
def State.withFetchWord (s : State) (nbits w : Nat) : State := s.placeWord (BitVec.ofNat 16 (w % 2 ^ nbits))

end Sys2Proof.Machine
end

