-- ==== Sys2Proof/Machine/Load.lean ====
section
/-! DEFINITION. The program-image load (70_reset_and_hazards.md R262): how a program comes into memory before
the first cycle (log 8). It is no step of the block. -/

namespace Sys2Proof.Machine

/-- Why the block never runs (70_reset_and_hazards.md R262; 93_implementation_defined.md I12). -/
inductive StartupError where
  /-- The image holds fewer than one word. -/
  | imageTooShort
deriving DecidableEq, Repr

/-- The words of an image, each `b[2k] << 8 | b[2k+1]`; an odd final byte is discarded (R262, D18). -/
def imageWords : List Byte → List Word
  | hi :: lo :: rest => (hi ++ lo) :: imageWords rest
  | _ => []

/-- Words are stored one after another from an address, wrapping mod 2^16: plain stores (R262). -/
def loadWords : Word → List Word → State → State
  | _, [], s => s
  | a, w :: ws, s => loadWords (a + 1) ws (s.setCell a w)

/-- The load: word 0 is the origin, the others go to memory from there (R262). -/
def State.load (s : State) (image : List Byte) : Except StartupError State :=
  match imageWords image with
  | [] => .error .imageTooShort
  | origin :: ws => .ok (loadWords origin ws s)

/-- The boot sequence up to the first cycle: reset, then the load (70_reset_and_hazards.md R261). -/
def boot (image : List Byte) : Except StartupError State := State.reset.load image

end Sys2Proof.Machine
end

