-- ==== Sys2Proof/Safety.lean ====
section
/-! DEFINITION. What a good state and a safe step are, and the words the claims are made with. -/

namespace Sys2Proof.Machine

/-! ### Good states -/

/-- What `activity` promises: a run that is over has `running` false (40_control_unit.md R130), and a held wait
has an empty Q, `running` true and no relay action left (44_trap.md R203). -/
def State.activityOk (s : State) : Bool :=
  match s.activity with
  | .betweenCycles => true
  | .waitGetc => s.running && s.queue.isEmpty && s.relay.isEmpty
  | .waitIn => s.running && s.queue.isEmpty && s.relay.isEmpty
  | .puts _ => true
  | .putsp _ => true
  | .runOver => !s.running

/-- The model's invariant: canonical memory, and `activity` true to its word. -/
def State.Inv (s : State) : Prop := s.mem.wf = true ∧ s.activityOk = true

/-! ### Steps -/

/-- So many steps lead from one state to another, each answering a next state. -/
def StepsTo : Nat → State → State → Prop
  | 0, s, t => s = t
  | k + 1, s, t => ∃ u, step s = .next u ∧ StepsTo k u t

/-! ### Keys -/

/-- The keys the relay still pushes: those before its halt request, if it makes one (20_memory.md R70, R71). -/
def comingKeys : List RelayEvent → List Word
  | [] => []
  | .push c :: rest => c :: comingKeys rest
  | .halt :: _ => []
  | .pass :: rest => comingKeys rest

/-- Every key that is in Q or still to come, oldest first. -/
def State.pendingKeys (s : State) : List Word := s.queue ++ comingKeys s.relay

/-! ### Strings -/

/-- The loop of PUTS run to its end (44_trap.md R204), with no bound: from address `a` and the first state, so
many words are read, the last one zero, and the second state results. -/
inductive PutsRun : Nat → Word → State → State → Prop where
  /-- The zero word ends the string and is not output. -/
  | stop {a : Word} {s : State} (h : (s.blockRead a).1 = 0x0000) : PutsRun 1 a s (s.blockRead a).2
  /-- Any other word is output and the next address read. -/
  | more {n : Nat} {a : Word} {s t : State} (h : (s.blockRead a).1 ≠ 0x0000)
      (next : PutsRun n (a + 1) ((s.blockRead a).2.emit (s.blockRead a).1) t) : PutsRun (n + 1) a s t

/-- The loop of PUTSP run to its end (44_trap.md R206), with no bound. -/
inductive PutspRun : Nat → Word → State → State → Prop where
  /-- A zero low byte ends the string. -/
  | stopLow {a : Word} {s : State} (h : lowByte (s.blockRead a).1 = 0x00) : PutspRun 1 a s (s.blockRead a).2
  /-- A zero high byte ends the string after the low byte is output. -/
  | stopHigh {a : Word} {s : State} (hl : lowByte (s.blockRead a).1 ≠ 0x00) (hh : highByte (s.blockRead a).1 = 0x00) :
      PutspRun 1 a s ((s.blockRead a).2.emit (zext (lowByte (s.blockRead a).1)))
  /-- Otherwise both are output, low byte first, and the next address read. -/
  | more {n : Nat} {a : Word} {s t : State} (hl : lowByte (s.blockRead a).1 ≠ 0x00)
      (hh : highByte (s.blockRead a).1 ≠ 0x00)
      (next : PutspRun n (a + 1) (((s.blockRead a).2.emit (zext (lowByte (s.blockRead a).1))).emit
        (zext (highByte (s.blockRead a).1))) t) : PutspRun (n + 1) a s t

/-! ### Registers an instruction names -/

/-- The instructions that write a general register, with the register (10_state.md R21): the result register, R7
of the calls, R0 of GETC and IN. -/
def writesReg : Instr → Option RegIdx
  | .br _ _ => none
  | .addReg dr _ _ => some dr
  | .addImm dr _ _ => some dr
  | .ld dr _ => some dr
  | .st _ _ => none
  | .jsrr _ => some 7#3
  | .jsr _ => some 7#3
  | .andReg dr _ _ => some dr
  | .andImm dr _ _ => some dr
  | .ldr dr _ _ => some dr
  | .str _ _ _ => none
  | .res8 => none
  | .not dr _ => some dr
  | .ldi dr _ => some dr
  | .sti _ _ => none
  | .jmp _ => none
  | .res13 => none
  | .lea dr _ => some dr
  | .trap _ => none
  | .trapGetc => some 0#3
  | .trapOut => none
  | .trapPuts => none
  | .trapIn => some 0#3
  | .trapPutsp => none
  | .trapHalt => none
  | .ret => none

/-- The general registers an instruction reads (10_state.md R21). -/
def readsRegs : Instr → List RegIdx
  | .br _ _ => []
  | .addReg _ sr1 sr2 => [sr1, sr2]
  | .addImm _ sr1 _ => [sr1]
  | .ld _ _ => []
  | .st sr _ => [sr]
  | .jsrr base => [base]
  | .jsr _ => []
  | .andReg _ sr1 sr2 => [sr1, sr2]
  | .andImm _ sr1 _ => [sr1]
  | .ldr _ base _ => [base]
  | .str sr base _ => [sr, base]
  | .res8 => []
  | .not _ sr => [sr]
  | .ldi _ _ => []
  | .sti sr _ => [sr]
  | .jmp base => [base]
  | .res13 => []
  | .lea _ _ => []
  | .trap _ => []
  | .trapGetc => []
  | .trapOut => [0#3]
  | .trapPuts => [0#3]
  | .trapIn => []
  | .trapPutsp => [0#3]
  | .trapHalt => []
  | .ret => [7#3]

/-- The instructions that write the condition code (10_state.md R27, with the default parameters). -/
def writesCC : Instr → Bool
  | .br _ _ => false
  | .addReg _ _ _ => true
  | .addImm _ _ _ => true
  | .ld _ _ => true
  | .st _ _ => false
  | .jsrr _ => false
  | .jsr _ => false
  | .andReg _ _ _ => false
  | .andImm _ _ _ => false
  | .ldr _ _ _ => true
  | .str _ _ _ => false
  | .res8 => false
  | .not _ _ => true
  | .ldi _ _ => true
  | .sti _ _ => false
  | .jmp _ => false
  | .res13 => false
  | .lea _ _ => true
  | .trap _ => false
  | .trapGetc => false
  | .trapOut => false
  | .trapPuts => false
  | .trapIn => false
  | .trapPutsp => false
  | .trapHalt => false
  | .ret => false

/-- The instructions that may write `pc` beyond the fetch's increment (10_state.md R24). -/
def writesPc : Instr → Bool
  | .br _ _ => true
  | .addReg _ _ _ => false
  | .addImm _ _ _ => false
  | .ld _ _ => false
  | .st _ _ => false
  | .jsrr _ => true
  | .jsr _ => true
  | .andReg _ _ _ => false
  | .andImm _ _ _ => false
  | .ldr _ _ _ => false
  | .str _ _ _ => false
  | .res8 => false
  | .not _ _ => false
  | .ldi _ _ => false
  | .sti _ _ => false
  | .jmp _ => true
  | .res13 => false
  | .lea _ _ => false
  | .trap _ => false
  | .trapGetc => false
  | .trapOut => false
  | .trapPuts => false
  | .trapIn => false
  | .trapPutsp => false
  | .trapHalt => false
  | .ret => true

/-- Two states that agree on everything but general register `r`. -/
def AgreeExcept (r : RegIdx) (s t : State) : Prop :=
  (∀ q : RegIdx, q ≠ r → s.getReg q = t.getReg q) ∧ s = { t with regs := s.regs }

end Sys2Proof.Machine
end

