-- ==== Sys2Proof/Certificates/Slice0/Obligations.lean ====
section
/-! DEFINITION. The statements for the provers: what the numbered rules of spec/ say the block does. -/

open Sys2Proof Sys2Proof.Machine Host

/-! ### Words and encodings -/

/-- 00_scope.md R8: sign extension by the rule's own formula, for every width up to 16; zero extension. -/
def Obligations.SignExtensionAddsTheTopBitsAbove : Prop :=
  (∀ (n : Nat) (v : BitVec n), 0 < n → n ≤ 16 →
    sext v = v.setWidth 16 + (if v.getLsbD (n - 1) then 0xFFFF#16 <<< n else 0#16)) ∧
  (∀ v : Byte, (zext v).toNat = v.toNat)

/-- Decode and encode agree on every well-formed instruction, with every operand at every value. -/
def Obligations.DecodeOfEncodeIsTheInstruction : Prop :=
  ∀ i : Instr, i.wellFormed = true → decode (encode i) = i

/-- The other direction: encoding a decoded word gives the word back with its ignored bits cleared, and words that
differ in ignored bits only are the same instruction. The ignored bits are those of 30_encoding.md R93 and R104 (D15);
writing them as 0 is the model's choice (log 9). -/
def Obligations.IgnoredBitsAreAllThatDecodingDrops : Prop :=
  (∀ w : Word, encode (decode w) = w &&& (decode w).readBits) ∧
  (∀ w v : Word, w &&& (decode w).readBits = v &&& (decode w).readBits → decode v = decode w)

/-- 30_encoding.md R91 (derived there): every word meets exactly one main row of the opcode table; and the decoder
answers a well-formed instruction whose own row the word meets. -/
def Obligations.EveryWordDecodesToItsOneTableRow : Prop :=
  ∀ w : Word, (∃ r ∈ mainRows, r.meets w = true ∧ ∀ r' ∈ mainRows, r'.meets w = true → r' = r) ∧
    (decode w).row.meets w = true ∧ (decode w).wellFormed = true

/-- Words written out bit by bit from the formats of 30_encoding.md R93 decode to what they stand for. -/
def Obligations.SampleWordsDecode : Prop :=
  decode 0b0000010111111110 = .br 0b010 0b111111110 ∧
  decode 0b0001000001100011 = .addImm 0 1 0b00011 ∧
  decode 0b0101010011000100 = .andReg 2 3 4 ∧
  decode 0b0110100101111111 = .ldr 4 5 0b111111 ∧
  decode 0b0011011000000101 = .st 3 0b000000101 ∧
  decode 0b0100100000010000 = .jsr 0b00000010000 ∧
  decode 0b1100000111000000 = .ret ∧
  decode 0b1000000000000000 = .res8 ∧
  decode 0b1111000100100101 = .trapHalt

/-! ### The cycle -/

/-- 40_control_unit.md R120: from between two cycles, with `running` true at the halt check, a step is the drain,
the fetch and then the execution of the decoded word; the relay may act before the halt check and before the drain
(the model's reading of R128, log 3). With no key queued, no relay action and an ordinary pc, spelt out. -/
def Obligations.StepRunsTheDecodedInstruction : Prop :=
  (∀ s : State, s.activity = .betweenCycles → s.relayPoint.running = true →
    step s = exec (decode s.relayPoint.relayPoint.drain.fetch.ir) s.relayPoint.relayPoint.drain.fetch) ∧
  (∀ (s : State) (i : Instr), s.activity = .betweenCycles → s.running = true → s.queue = [] → s.relay = [] →
    s.pc ≠ 0xFE00 → s.pc ≠ 0xFE02 → decode (s.cell s.pc) = i →
    step s = exec i { s with ir := s.cell s.pc, pc := s.pc + 1 })

/-- 40_control_unit.md R123 (with D10): the fetch's word, register and increment, mod 2^16. -/
def Obligations.FetchReadsAtPcAndIncrements : Prop :=
  ∀ s : State, s.fetch.ir = (s.blockRead s.pc).1 ∧ s.fetch.pc.toNat = (s.pc.toNat + 1) % 65536 ∧
    s.fetch = { (s.blockRead s.pc).2 with ir := s.fetch.ir, pc := s.fetch.pc }

/-- 40_control_unit.md R122: the drain moves the oldest key into the data register and sets the ready bit when Q is
not empty and the ready bit as stored is clear; otherwise it does nothing. -/
def Obligations.DrainMovesTheOldestKey : Prop :=
  (∀ (s : State) (c : Word) (rest : List Word), s.mem.wf = true → s.queue = c :: rest → s.ready = false →
    s.drain.queue = rest ∧ s.drain.cell 0xFE02 = c ∧ s.drain.kbAvail = true ∧
    s.drain.cell 0xFE00 = s.cell 0xFE00 ||| 0x8000 ∧
    (∀ a : Word, a ≠ 0xFE00 → a ≠ 0xFE02 → s.drain.cell a = s.cell a) ∧
    s.drain = { s with queue := rest, kbAvail := true, mem := s.drain.mem }) ∧
  (∀ s : State, s.queue = [] ∨ s.ready = true → s.drain = s)

/-- 40_control_unit.md R121, R130 (D16): a halt check that finds `running` false ends the run, with no drain, no
fetch and every key left in Q; the ended state stays (60_exceptions.md R245). The relay's actions due before that
halt check happen in the same step, so its due pushes are in the ended Q (R128; the model's choice, logs 3 and 11).
The mark, and that a step then answers the same state, are the model's choice (log 4). -/
def Obligations.HaltCheckEndsTheRun : Prop :=
  (∀ s : State, s.activity = .betweenCycles → s.relayPoint.running = false →
    step s = .next { s.relayPoint with activity := .runOver }) ∧
  (∀ s : State, s.activity = .betweenCycles → s.running = false → s.relay = [] →
    step s = .next { s with activity := .runOver }) ∧
  (∀ s : State, s.activity = .runOver → step s = .next s)

/-- 10_state.md R29: `running` starts true, HALT and a halt request clear it, nothing sets it again, and nothing
else clears it: an instruction that clears it is HALT, and a step that clears it dispatches HALT, or the relay had a
halt request to make (its list of actions is the model's own, log 3). -/
def Obligations.OnlyHaltAndTheRelayClearRunning : Prop :=
  State.reset.running = true ∧ State.reset.pc = 0x3000 ∧
  (∀ s : State, ∃ t, exec .trapHalt s = .next t ∧ t.running = false) ∧
  (∀ s : State, s.haltRequest.running = false) ∧
  (∀ s t : State, s.running = false → step s = .next t → t.running = false) ∧
  (∀ (i : Instr) (s t : State), i.wellFormed = true → s.running = true → exec i s = .next t → t.running = false →
    i = .trapHalt ∨ .halt ∈ s.relay) ∧
  (∀ s t : State, s.running = true → step s = .next t → t.running = false →
    (s.activity = .betweenCycles ∧ decode s.relayPoint.relayPoint.drain.fetch.ir = .trapHalt) ∨ .halt ∈ s.relay)

/-- 60_exceptions.md R230 and 30_encoding.md R100: no instruction and no step faults or is refused, in any state. -/
def Obligations.EveryInstructionAndStepAnswersNext : Prop :=
  (∀ (i : Instr) (s : State), ∃ t, exec i s = .next t) ∧ (∀ s : State, ∃ t, step s = .next t)

/-- The invariant (canonical memory; `activity` true to its word) is kept by every step. -/
def Obligations.StepKeepsTheInvariant : Prop :=
  ∀ s t : State, s.Inv → step s = .next t → t.Inv

/-- The invariant holds at reset, for every setting of the parameters. -/
def Obligations.ResetMeetsTheInvariant : Prop :=
  State.reset.Inv ∧ ∀ cfg : Config, (State.resetWith cfg).Inv

/-- 20_memory.md R72: the output surface is append-only, along every step. -/
def Obligations.OutputOnlyGrows : Prop :=
  ∀ s t : State, step s = .next t → s.output <+: t.output

/-- 10_state.md R30, 20_memory.md R64: keys leave Q in the order they arrived. Of the keys in Q and the keys the
relay still pushes, a step takes some from the front and leaves the others in their order. (That a halt request ends
the relay's pushes is R71's; the list of coming actions is the model's own, log 3.) -/
def Obligations.KeysLeaveInArrivalOrder : Prop :=
  ∀ s t : State, step s = .next t → t.pendingKeys <:+ s.pendingKeys

/-- The model's own (log 8): the very next step after `withFetchWord` fetches and runs the placed word, whatever
`pc` is, the device addresses included. -/
def Obligations.PlacedWordRunsNext : Prop :=
  ∀ (s : State) (w : Word), s.mem.wf = true →
    ∃ u, step (s.withFetchWord 16 w.toNat) = exec (decode w) u ∧ u.ir = w ∧ u.pc = s.pc + 1 ∧
      u.regs = s.regs ∧ u.cc = s.cc ∧ u.output = s.output

/-! ### Memory and the device registers -/

/-- 20_memory.md R56 (D7): a status read in each of its cases, its result, and what it leaves alone. -/
def Obligations.StatusReadDeliversAPendingKey : Prop :=
  (∀ (s : State) (c : Word) (rest : List Word), s.mem.wf = true → s.kbAvail = false → s.queue = c :: rest →
    (s.memRead 0xFE00).1 = s.cell 0xFE00 ||| 0x8000 ∧ (s.memRead 0xFE00).2.queue = rest ∧
    (s.memRead 0xFE00).2.cell 0xFE02 = c ∧ (s.memRead 0xFE00).2.kbAvail = true) ∧
  (∀ s : State, s.mem.wf = true → s.kbAvail = true →
    (s.memRead 0xFE00).1 = s.cell 0xFE00 ||| 0x8000 ∧ (s.memRead 0xFE00).2.queue = s.queue ∧
    (s.memRead 0xFE00).2.cell 0xFE02 = s.cell 0xFE02 ∧ (s.memRead 0xFE00).2.kbAvail = true) ∧
  (∀ s : State, s.mem.wf = true → s.kbAvail = false → s.queue = [] →
    (s.memRead 0xFE00).1 = s.cell 0xFE00 &&& 0x7FFF ∧ (s.memRead 0xFE00).2.queue = [] ∧
    (s.memRead 0xFE00).2.cell 0xFE02 = s.cell 0xFE02 ∧ (s.memRead 0xFE00).2.kbAvail = false) ∧
  (∀ s : State, s.mem.wf = true → (s.memRead 0xFE00).2.cell 0xFE00 = (s.memRead 0xFE00).1 ∧
    (∀ a : Word, a ≠ 0xFE00 → a ≠ 0xFE02 → (s.memRead 0xFE00).2.cell a = s.cell a) ∧
    (s.memRead 0xFE00).2 = { s with
      queue := (s.memRead 0xFE00).2.queue, kbAvail := (s.memRead 0xFE00).2.kbAvail,
      mem := (s.memRead 0xFE00).2.mem })

/-- 20_memory.md R57 (D7) and R59: a data read returns the cell, clears `kb_avail` and changes nothing else; a read at
any other address but the status register's returns the cell and changes nothing. -/
def Obligations.DataAndOrdinaryReads : Prop :=
  (∀ s : State, s.memRead 0xFE02 = (s.cell 0xFE02, { s with kbAvail := false })) ∧
  (∀ (s : State) (a : Word), a ≠ 0xFE00 → a ≠ 0xFE02 → s.memRead a = (s.cell a, s))

/-- The block's read is `MemRead` (20_memory.md R60); at 0xFE00 alone the relay may act first (R128, log 3). -/
def Obligations.BlockReadIsMemRead : Prop :=
  (∀ (s : State) (a : Word), a ≠ 0xFE00 ∨ s.relay = [] → s.blockRead a = s.memRead a) ∧
  (∀ s : State, s.blockRead 0xFE00 = s.relayPoint.memRead 0xFE00)

/-- 20_memory.md R58 (D9): a write stores the word at every address, the device registers included, and changes no
other cell and no other state. -/
def Obligations.WriteIsAPlainStore : Prop :=
  ∀ (s : State) (a v : Word), s.mem.wf = true →
    (s.memWrite a v).cell a = v ∧ (∀ b : Word, b ≠ a → (s.memWrite a v).cell b = s.cell b) ∧
    s.memWrite a v = { s with mem := (s.memWrite a v).mem }

/-- 20_memory.md R66 (derived there), 70_reset_and_hazards.md R271: a store onto the next instruction is what the
very next step fetches and runs. -/
def Obligations.StoreOntoTheNextInstructionIsFetched : Prop :=
  ∀ (s : State) (sr : RegIdx), s.mem.wf = true → s.activity = .betweenCycles → s.running = true → s.queue = [] →
    s.relay = [] → s.pc ≠ 0xFE00 → s.pc ≠ 0xFE02 →
    ∃ t, exec (.st sr 0) s = .next t ∧
      step t = exec (decode (s.getReg sr)) { t with ir := s.getReg sr, pc := s.pc + 1 }

/-! ### Operate instructions -/

/-- 41_operate.md R140: `setFlags` in its three cases, and nothing but cc changes. -/
def Obligations.SetFlagsClassifiesTheRegister : Prop :=
  ∀ (s : State) (i : RegIdx),
    (s.getReg i = 0 → (s.setFlags i).cc = .z) ∧
    (0x8000 ≤ (s.getReg i).toNat → (s.setFlags i).cc = .n) ∧
    (0 < (s.getReg i).toNat → (s.getReg i).toNat < 0x8000 → (s.setFlags i).cc = .p) ∧
    s.setFlags i = { s with cc := (s.setFlags i).cc }

/-- 41_operate.md R141: both forms of ADD, their words, their result mod 2^16, their flags, their frame. -/
def Obligations.AddWritesTheSumAndItsFlags : Prop :=
  (∀ w : Word, w.extractLsb' 12 4 = 0b0001 → decode w =
    if w.getLsbD 5 then .addImm (w.extractLsb' 9 3) (w.extractLsb' 6 3) (w.extractLsb' 0 5)
    else .addReg (w.extractLsb' 9 3) (w.extractLsb' 6 3) (w.extractLsb' 0 3)) ∧
  (∀ (dr sr1 sr2 : RegIdx) (s : State), ∃ t, exec (.addReg dr sr1 sr2) s = .next t ∧
    (t.getReg dr).toNat = ((s.getReg sr1).toNat + (s.getReg sr2).toNat) % 65536 ∧
    t.cc = (if t.getReg dr = 0 then .z else if 0x8000 ≤ (t.getReg dr).toNat then .n else .p) ∧
    (∀ r, r ≠ dr → t.getReg r = s.getReg r) ∧ t = { s with regs := t.regs, cc := t.cc }) ∧
  (∀ (dr sr1 : RegIdx) (imm : BitVec 5) (s : State), ∃ t, exec (.addImm dr sr1 imm) s = .next t ∧
    (t.getReg dr).toNat = ((s.getReg sr1).toNat + (imm.signExtend 16).toNat) % 65536 ∧
    t.cc = (if t.getReg dr = 0 then .z else if 0x8000 ≤ (t.getReg dr).toNat then .n else .p) ∧
    (∀ r, r ≠ dr → t.getReg r = s.getReg r) ∧ t = { s with regs := t.regs, cc := t.cc })

/-- 41_operate.md R142 (D11): both forms of AND write the conjunction; with the default AND_SETS_CC = false cc stays,
with AND_SETS_CC = true it is the result's. -/
def Obligations.AndWritesTheConjunction : Prop :=
  (∀ w : Word, w.extractLsb' 12 4 = 0b0101 → decode w =
    if w.getLsbD 5 then .andImm (w.extractLsb' 9 3) (w.extractLsb' 6 3) (w.extractLsb' 0 5)
    else .andReg (w.extractLsb' 9 3) (w.extractLsb' 6 3) (w.extractLsb' 0 3)) ∧
  (∀ (dr sr1 sr2 : RegIdx) (s : State), ∃ t, exec (.andReg dr sr1 sr2) s = .next t ∧
    t.getReg dr = s.getReg sr1 &&& s.getReg sr2 ∧
    (∀ r, r ≠ dr → t.getReg r = s.getReg r) ∧ t = { s with regs := t.regs }) ∧
  (∀ (dr sr1 : RegIdx) (imm : BitVec 5) (s : State), ∃ t, exec (.andImm dr sr1 imm) s = .next t ∧
    t.getReg dr = s.getReg sr1 &&& imm.signExtend 16 ∧
    (∀ r, r ≠ dr → t.getReg r = s.getReg r) ∧ t = { s with regs := t.regs }) ∧
  (∀ (cfg : Config) (dr sr1 sr2 : RegIdx) (s : State), cfg.andSetsCC = true →
    (andRegWith cfg dr sr1 sr2 s).getReg dr = s.getReg sr1 &&& s.getReg sr2 ∧
    (andRegWith cfg dr sr1 sr2 s).cc = ccOf (s.getReg sr1 &&& s.getReg sr2)) ∧
  (∀ (cfg : Config) (dr sr1 : RegIdx) (imm : BitVec 5) (s : State), cfg.andSetsCC = true →
    (andImmWith cfg dr sr1 imm s).getReg dr = s.getReg sr1 &&& imm.signExtend 16 ∧
    (andImmWith cfg dr sr1 imm s).cc = ccOf (s.getReg sr1 &&& imm.signExtend 16))

/-- 41_operate.md R143: NOT, its words whatever bits 5:0 hold, the complement, its flags, its frame. -/
def Obligations.NotWritesTheComplementAndItsFlags : Prop :=
  (∀ w : Word, w.extractLsb' 12 4 = 0b1001 → decode w = .not (w.extractLsb' 9 3) (w.extractLsb' 6 3)) ∧
  (∀ (dr sr : RegIdx) (s : State), ∃ t, exec (.not dr sr) s = .next t ∧
    (t.getReg dr).toNat = 0xFFFF - (s.getReg sr).toNat ∧
    t.cc = (if s.getReg sr = 0xFFFF then .z else if (s.getReg sr).toNat < 0x8000 then .n else .p) ∧
    (∀ r, r ≠ dr → t.getReg r = s.getReg r) ∧ t = { s with regs := t.regs, cc := t.cc })

/-! ### Data movement -/

/-- 42_data_movement.md R160: LD reads at `pc + sext_9(PCoffset9)`; its flags; its frame. From an ordinary address
the loaded word is the cell's and nothing but DR and cc changes; from a device address what changes besides is the
read's own side effect. With no relay action to come the read is `MemRead` itself (else see
`BlockReadIsMemRead`). -/
def Obligations.LdLoadsFromThePcRelativeAddress : Prop :=
  (∀ w : Word, w.extractLsb' 12 4 = 0b0010 → decode w = .ld (w.extractLsb' 9 3) (w.extractLsb' 0 9)) ∧
  (∀ (dr : RegIdx) (off : BitVec 9) (s : State), ∃ t, exec (.ld dr off) s = .next t ∧
    t.getReg dr = (s.blockRead (s.pc + off.signExtend 16)).1 ∧ t.cc = ccOf (t.getReg dr) ∧
    (∀ r, r ≠ dr → t.getReg r = s.getReg r) ∧
    t = { (s.blockRead (s.pc + off.signExtend 16)).2 with regs := t.regs, cc := t.cc }) ∧
  (∀ (dr : RegIdx) (off : BitVec 9) (s : State), s.relay = [] → ∃ t, exec (.ld dr off) s = .next t ∧
    t.getReg dr = (s.memRead (s.pc + off.signExtend 16)).1 ∧
    t = { (s.memRead (s.pc + off.signExtend 16)).2 with regs := t.regs, cc := t.cc }) ∧
  (∀ (dr : RegIdx) (off : BitVec 9) (s : State), s.pc + off.signExtend 16 ≠ 0xFE00 →
    s.pc + off.signExtend 16 ≠ 0xFE02 → ∃ t, exec (.ld dr off) s = .next t ∧
    t.getReg dr = s.cell (s.pc + off.signExtend 16) ∧ t = { s with regs := t.regs, cc := t.cc })

/-- 42_data_movement.md R161: LDI reads the pointer, then the word it points at, in that order, each with its side
effects; with no relay action to come both are `MemRead` itself. -/
def Obligations.LdiLoadsThroughThePointer : Prop :=
  (∀ w : Word, w.extractLsb' 12 4 = 0b1010 → decode w = .ldi (w.extractLsb' 9 3) (w.extractLsb' 0 9)) ∧
  (∀ (dr : RegIdx) (off : BitVec 9) (s s1 s2 : State) (p v : Word),
    s.blockRead (s.pc + off.signExtend 16) = (p, s1) → s1.blockRead p = (v, s2) →
    ∃ t, exec (.ldi dr off) s = .next t ∧ t.getReg dr = v ∧ t.cc = ccOf v ∧
      (∀ r, r ≠ dr → t.getReg r = s.getReg r) ∧ t = { s2 with regs := t.regs, cc := t.cc }) ∧
  (∀ (dr : RegIdx) (off : BitVec 9) (s s1 s2 : State) (p v : Word), s.relay = [] →
    s.memRead (s.pc + off.signExtend 16) = (p, s1) → s1.memRead p = (v, s2) →
    ∃ t, exec (.ldi dr off) s = .next t ∧ t.getReg dr = v ∧ t.cc = ccOf v ∧
      (∀ r, r ≠ dr → t.getReg r = s.getReg r) ∧ t = { s2 with regs := t.regs, cc := t.cc })

/-- 42_data_movement.md R162: LDR reads at `x[BaseR] + sext_6(offset6)`, the base read before DR is written;
with no relay action to come the read is `MemRead` itself. -/
def Obligations.LdrLoadsFromTheBaseAddress : Prop :=
  (∀ w : Word, w.extractLsb' 12 4 = 0b0110 →
    decode w = .ldr (w.extractLsb' 9 3) (w.extractLsb' 6 3) (w.extractLsb' 0 6)) ∧
  (∀ (dr base : RegIdx) (off : BitVec 6) (s : State), ∃ t, exec (.ldr dr base off) s = .next t ∧
    t.getReg dr = (s.blockRead (s.getReg base + off.signExtend 16)).1 ∧ t.cc = ccOf (t.getReg dr) ∧
    (∀ r, r ≠ dr → t.getReg r = s.getReg r) ∧
    t = { (s.blockRead (s.getReg base + off.signExtend 16)).2 with regs := t.regs, cc := t.cc }) ∧
  (∀ (dr base : RegIdx) (off : BitVec 6) (s : State), s.relay = [] → ∃ t, exec (.ldr dr base off) s = .next t ∧
    t.getReg dr = (s.memRead (s.getReg base + off.signExtend 16)).1 ∧
    t = { (s.memRead (s.getReg base + off.signExtend 16)).2 with regs := t.regs, cc := t.cc })

/-- 42_data_movement.md R163: LEA writes the address, sets the flags from it and accesses no memory. -/
def Obligations.LeaWritesTheAddress : Prop :=
  (∀ w : Word, w.extractLsb' 12 4 = 0b1110 → decode w = .lea (w.extractLsb' 9 3) (w.extractLsb' 0 9)) ∧
  (∀ (dr : RegIdx) (off : BitVec 9) (s : State), ∃ t, exec (.lea dr off) s = .next t ∧
    t.getReg dr = s.pc + off.signExtend 16 ∧
    t.cc = (if t.getReg dr = 0 then .z else if 0x8000 ≤ (t.getReg dr).toNat then .n else .p) ∧
    (∀ r, r ≠ dr → t.getReg r = s.getReg r) ∧ t = { s with regs := t.regs, cc := t.cc })

/-- 42_data_movement.md R164 and R166: ST and STR store the source register at the computed address; every other
cell reads as before; no register, flag or other state changes. -/
def Obligations.StAndStrStoreAtTheComputedAddress : Prop :=
  (∀ w : Word, w.extractLsb' 12 4 = 0b0011 → decode w = .st (w.extractLsb' 9 3) (w.extractLsb' 0 9)) ∧
  (∀ w : Word, w.extractLsb' 12 4 = 0b0111 →
    decode w = .str (w.extractLsb' 9 3) (w.extractLsb' 6 3) (w.extractLsb' 0 6)) ∧
  (∀ (sr : RegIdx) (off : BitVec 9) (s : State), s.mem.wf = true → ∃ t, exec (.st sr off) s = .next t ∧
    (∀ ea : Word, ea = s.pc + off.signExtend 16 →
      t.cell ea = s.getReg sr ∧ ∀ a : Word, a ≠ ea → t.cell a = s.cell a) ∧
    t = { s with mem := t.mem }) ∧
  (∀ (sr base : RegIdx) (off : BitVec 6) (s : State), s.mem.wf = true → ∃ t, exec (.str sr base off) s = .next t ∧
    (∀ ea : Word, ea = s.getReg base + off.signExtend 16 →
      t.cell ea = s.getReg sr ∧ ∀ a : Word, a ≠ ea → t.cell a = s.cell a) ∧
    t = { s with mem := t.mem })

/-- 42_data_movement.md R165: STI reads its pointer with the read's side effects, then stores plainly at it; every
other cell reads as after the pointer read, so every cell but that one and the two device cells as before; no register
and no flag changes. With no relay action to come the pointer read is `MemRead` itself. -/
def Obligations.StiStoresThroughThePointer : Prop :=
  (∀ w : Word, w.extractLsb' 12 4 = 0b1011 → decode w = .sti (w.extractLsb' 9 3) (w.extractLsb' 0 9)) ∧
  (∀ (sr : RegIdx) (off : BitVec 9) (s s1 : State) (p : Word), s.mem.wf = true →
    s.blockRead (s.pc + off.signExtend 16) = (p, s1) →
    ∃ t, exec (.sti sr off) s = .next t ∧ t.cell p = s.getReg sr ∧
      (∀ a : Word, a ≠ p → t.cell a = s1.cell a) ∧ t = { s1 with mem := t.mem } ∧
      (∀ a : Word, a ≠ p → a ≠ 0xFE00 → a ≠ 0xFE02 → t.cell a = s.cell a) ∧
      t.regs = s.regs ∧ t.cc = s.cc ∧ t.pc = s.pc ∧ t.output = s.output) ∧
  (∀ (sr : RegIdx) (off : BitVec 9) (s s1 : State) (p : Word), s.mem.wf = true → s.relay = [] →
    s.memRead (s.pc + off.signExtend 16) = (p, s1) →
    ∃ t, exec (.sti sr off) s = .next t ∧ t.cell p = s.getReg sr ∧
      (∀ a : Word, a ≠ p → t.cell a = s1.cell a) ∧ t = { s1 with mem := t.mem })

/-- What loads and stores leave alone, device addresses included: of all memory only the two device cells can be
changed by a read's side effect, and a store changes its own cell. -/
def Obligations.LoadsLeaveMemoryButTheDeviceCells : Prop :=
  ∀ (i : Instr) (s t : State), s.mem.wf = true →
    (∃ dr off, i = .ld dr off) ∨ (∃ dr off, i = .ldi dr off) ∨ (∃ dr base off, i = .ldr dr base off) →
    exec i s = .next t →
    (∀ a : Word, a ≠ 0xFE00 → a ≠ 0xFE02 → t.cell a = s.cell a) ∧
    t.pc = s.pc ∧ t.ir = s.ir ∧ t.output = s.output ∧ t.activity = s.activity ∧
    (∀ r, writesReg i ≠ some r → t.getReg r = s.getReg r)

/-! ### Control transfer -/

/-- 43_control_transfer.md R180: the branch is taken when the mask bit of the current condition code is set (n is
`ir[11]`, z `ir[10]`, p `ir[9]`); nothing but pc changes. -/
def Obligations.BranchTestsTheMaskAgainstCc : Prop :=
  (∀ w : Word, w.extractLsb' 12 4 = 0b0000 → decode w = .br (w.extractLsb' 9 3) (w.extractLsb' 0 9)) ∧
  (∀ (mask : BitVec 3) (off : BitVec 9) (s : State), ∃ t, exec (.br mask off) s = .next t ∧
    ((s.cc = .n ∧ mask.getLsbD 2 = true) ∨ (s.cc = .z ∧ mask.getLsbD 1 = true) ∨
        (s.cc = .p ∧ mask.getLsbD 0 = true) → t.pc = s.pc + off.signExtend 16) ∧
    (¬ ((s.cc = .n ∧ mask.getLsbD 2 = true) ∨ (s.cc = .z ∧ mask.getLsbD 1 = true) ∨
        (s.cc = .p ∧ mask.getLsbD 0 = true)) → t.pc = s.pc) ∧
    t = { s with pc := t.pc })

/-- 30_encoding.md R102 (derived there): mask 000 never branches, mask 111 always does; the word 0x0000 is a no-op. -/
def Obligations.BranchNeverAndBranchAlways : Prop :=
  (∀ (off : BitVec 9) (s : State), exec (.br 0b000 off) s = .next s) ∧
  (∀ (off : BitVec 9) (s : State), exec (.br 0b111 off) s = .next { s with pc := s.pc + off.signExtend 16 }) ∧
  (∀ s : State, exec (decode 0x0000) s = .next s)

/-- 43_control_transfer.md R181: JMP and RET go to the base register's value; nothing but pc changes. -/
def Obligations.JumpGoesToTheBaseRegister : Prop :=
  (∀ w : Word, w.extractLsb' 12 4 = 0b1100 →
    decode w = if w.extractLsb' 6 3 = 7#3 then .ret else .jmp (w.extractLsb' 6 3)) ∧
  (∀ (base : RegIdx) (s : State), exec (.jmp base) s = .next { s with pc := s.getReg base }) ∧
  (∀ s : State, exec .ret s = .next { s with pc := s.getReg 7 })

/-- 43_control_transfer.md R182 (flags: D12): JSR saves the incremented pc in R7 and goes to the target relative to
it; cc and all else stay. -/
def Obligations.JsrSavesTheReturnAddressAndJumps : Prop :=
  (∀ w : Word, w.extractLsb' 12 4 = 0b0100 → w.getLsbD 11 = true → decode w = .jsr (w.extractLsb' 0 11)) ∧
  (∀ (off : BitVec 11) (s : State), ∃ t, exec (.jsr off) s = .next t ∧ t.getReg 7 = s.pc ∧
    t.pc = s.pc + off.signExtend 16 ∧ (∀ r, r ≠ 7 → t.getReg r = s.getReg r) ∧
    t = { s with regs := t.regs, pc := t.pc })

/-- 43_control_transfer.md R183 (D12, D21): JSRR saves the incremented pc in R7, then goes to the base register's
value, which for BaseR = 7 is the return address just written. -/
def Obligations.JsrrReadsTheBaseAfterWritingR7 : Prop :=
  (∀ w : Word, w.extractLsb' 12 4 = 0b0100 → w.getLsbD 11 = false → decode w = .jsrr (w.extractLsb' 6 3)) ∧
  (∀ (base : RegIdx) (s : State), ∃ t, exec (.jsrr base) s = .next t ∧ t.getReg 7 = s.pc ∧
    t.pc = (if base = 7 then s.pc else s.getReg base) ∧ (∀ r, r ≠ 7 → t.getReg r = s.getReg r) ∧
    t = { s with regs := t.regs, pc := t.pc })

/-- 43_control_transfer.md R184: a RET executed with R7 as a JSR or JSRR left it goes to the address after the
call; no trap writes R7. -/
def Obligations.ReturnGoesToTheAddressAfterTheCall : Prop :=
  (∀ (i : Instr) (s t u : State), (∃ off, i = .jsr off) ∨ (∃ base, i = .jsrr base) → exec i s = .next t →
    u.getReg 7 = t.getReg 7 → exec .ret u = .next { u with pc := s.pc }) ∧
  (∀ (v : Byte) (s t : State), exec (decodeTrap v) s = .next t → t.getReg 7 = s.getReg 7)

/-- 40_control_unit.md R126: opcodes 8 and 13 do nothing beyond the fetch's increment, whatever bits 11:0 hold; the
cycle's drain and fetch still happen. -/
def Obligations.ReservedOpcodesDoNothing : Prop :=
  (∀ w : Word, w.extractLsb' 12 4 = 0b1000 → decode w = .res8) ∧
  (∀ w : Word, w.extractLsb' 12 4 = 0b1101 → decode w = .res13) ∧
  (∀ s : State, exec .res8 s = .next s) ∧ (∀ s : State, exec .res13 s = .next s) ∧
  (∀ s : State, s.activity = .betweenCycles → s.running = true → s.relay = [] →
    s.drain.fetch.ir.extractLsb' 12 4 = 0b1000 ∨ s.drain.fetch.ir.extractLsb' 12 4 = 0b1101 →
    step s = .next s.drain.fetch ∧ s.drain.fetch.pc = s.pc + 1)

/-! ### TRAP -/

/-- 44_trap.md R200, R209 and 30_encoding.md R99: the vector selects the service; every other vector is a no-op;
TRAP with any vector does what the constructor of its row does. -/
def Obligations.TrapVectorSelectsTheService : Prop :=
  (∀ w : Word, w.extractLsb' 12 4 = 0b1111 → decode w = decodeTrap (w.extractLsb' 0 8)) ∧
  decodeTrap 0x20 = .trapGetc ∧ decodeTrap 0x21 = .trapOut ∧ decodeTrap 0x22 = .trapPuts ∧
  decodeTrap 0x23 = .trapIn ∧ decodeTrap 0x24 = .trapPutsp ∧ decodeTrap 0x25 = .trapHalt ∧
  (∀ v : Byte, v.toNat < 0x20 ∨ 0x25 < v.toNat → decodeTrap v = .trap v ∧ ∀ s, exec (.trap v) s = .next s) ∧
  (∀ (v : Byte) (s : State), exec (.trap v) s = exec (decodeTrap v) s)

/-- 44_trap.md R201 (D12): what every trap service leaves alone: each piece of state but what its rule names. Q is
popped by GETC and IN and by the status reads of PUTS and PUTSP; the relay may act at those accesses (log 3). -/
def Obligations.TrapLeavesPcCcAndRegistersAlone : Prop :=
  ∀ (v : Byte) (s t : State), s.mem.wf = true → exec (decodeTrap v) s = .next t →
    t.pc = s.pc ∧ t.cc = s.cc ∧ t.ir = s.ir ∧ (∀ r, r ≠ 0 → t.getReg r = s.getReg r) ∧
    (∀ a : Word, a ≠ 0xFE00 → a ≠ 0xFE02 → t.cell a = s.cell a) ∧
    (v ≠ 0x20 → v ≠ 0x23 → t.getReg 0 = s.getReg 0) ∧
    (v ≠ 0x22 → v ≠ 0x24 → t.mem = s.mem ∧ t.kbAvail = s.kbAvail) ∧
    (v ≠ 0x20 → v ≠ 0x22 → v ≠ 0x23 → v ≠ 0x24 → t.queue = s.queue ∧ (v ≠ 0x25 → t.running = s.running)) ∧
    (v ≠ 0x25 → .halt ∉ s.relay → t.running = s.running) ∧
    (v ≠ 0x21 → v ≠ 0x22 → v ≠ 0x23 → v ≠ 0x24 → t.output = s.output)

/-- 44_trap.md R202 (D12): GETC with a key queued pops the oldest into R0, with no echo and no flag. -/
def Obligations.GetcPopsTheOldestKeyIntoR0 : Prop :=
  ∀ (s : State) (c : Word) (rest : List Word), s.running = true → s.relay = [] → s.queue = c :: rest →
    ∃ t, exec .trapGetc s = .next t ∧ t.getReg 0 = c ∧ t.queue = rest ∧
      (∀ r, r ≠ 0 → t.getReg r = s.getReg r) ∧
      t = { s with regs := t.regs, queue := rest, activity := .betweenCycles }

/-- 44_trap.md R205 (D13, D14): IN is GETC with the key output; with TRAP_STUB_MODE it is a no-op. -/
def Obligations.InPopsAndEchoesTheOldestKey : Prop :=
  (∀ (s : State) (c : Word) (rest : List Word), s.running = true → s.relay = [] → s.queue = c :: rest →
    ∃ t, exec .trapIn s = .next t ∧ t.getReg 0 = c ∧ t.queue = rest ∧ t.output = s.output ++ [c] ∧
      (∀ r, r ≠ 0 → t.getReg r = s.getReg r) ∧
      t = { s with regs := t.regs, queue := rest, output := t.output, activity := .betweenCycles }) ∧
  (∀ (cfg : Config) (s : State), cfg.trapStubMode = true → inService cfg s = s)

/-- 44_trap.md R203 and 40_control_unit.md R129 (D16): with Q empty and no relay action GETC and IN hold; each
further step holds; a key pushed lets the service complete with exactly that key, also when a halt request follows
before the next step (60_exceptions.md R232(d)); a halt request lets it return with no pop, no write and no output.
(The held state in `activity` is the model's own, log 4.) -/
def Obligations.WaitHoldsUntilTheRelayActs : Prop :=
  (∀ s : State, s.running = true → s.queue = [] → s.relay = [] →
    exec .trapGetc s = .next { s with activity := .waitGetc } ∧
    exec .trapIn s = .next { s with activity := .waitIn }) ∧
  (∀ s : State, s.running = true → s.queue = [] → s.relay = [] → s.activity = .waitGetc ∨ s.activity = .waitIn →
    step s = .next s ∧
    (∀ c : Word, ∃ t, step (s.pushKey c) = .next t ∧ t.getReg 0 = c ∧ t.queue = [] ∧
      t.output = (if s.activity = .waitIn then s.output ++ [c] else s.output) ∧
      (∀ r, r ≠ 0 → t.getReg r = s.getReg r) ∧
      t = { s with regs := t.regs, output := t.output, activity := .betweenCycles }) ∧
    (∀ c : Word, ∃ t, step (s.pushKey c).haltRequest = .next t ∧ t.getReg 0 = c ∧ t.queue = [] ∧
      t.running = false ∧ t.output = (if s.activity = .waitIn then s.output ++ [c] else s.output) ∧
      (∀ r, r ≠ 0 → t.getReg r = s.getReg r) ∧
      t = { s with regs := t.regs, running := false, output := t.output, activity := .betweenCycles }) ∧
    step s.haltRequest = .next { s with running := false, activity := .betweenCycles })

/-- 44_trap.md R202, R205, statement by statement (D16): a GETC or IN that finds `running` false returns with no pop,
no write of R0 and no output. For an empty Q the prose says the same; for a key already queued the prose of R203 and
R232(c) can be read otherwise, and this is the model's reading (log 5). -/
def Obligations.GetcAndInReturnWithNoPopWhenHalted : Prop :=
  ∀ s : State, s.running = false → s.relay = [] →
    exec .trapGetc s = .next { s with activity := .betweenCycles } ∧
    exec .trapIn s = .next { s with activity := .betweenCycles }

/-- 60_exceptions.md R232(d) (derived there): a key push and a halt request that arrive during a GETC or IN wait,
after any number of polls, are taken in the order they occur; IN outputs the key it pops. (The list of relay actions
is the model's own, log 3.) -/
def Obligations.WaitTakesRelayActionsInOrder : Prop :=
  ∀ (s : State) (n : Nat) (c : Word) (rest : List RelayEvent), s.running = true → s.queue = [] →
    (s.relay = List.replicate (n + 1) .pass ++ .push c :: .halt :: rest →
      (∃ t, exec .trapGetc s = .next t ∧ t.getReg 0 = c ∧ (∀ r, r ≠ 0 → t.getReg r = s.getReg r) ∧
        t = { s with regs := t.regs, relay := .halt :: rest, activity := .betweenCycles }) ∧
      (∃ t, exec .trapIn s = .next t ∧ t.getReg 0 = c ∧ (∀ r, r ≠ 0 → t.getReg r = s.getReg r) ∧
        t = { s with
          regs := t.regs, output := s.output ++ [c], relay := .halt :: rest, activity := .betweenCycles })) ∧
    (s.relay = List.replicate (n + 1) .pass ++ .halt :: .push c :: rest →
      exec .trapGetc s = .next { s with running := false, relay := [], activity := .betweenCycles } ∧
      exec .trapIn s = .next { s with running := false, relay := [], activity := .betweenCycles })

/-- 44_trap.md R207 (D14): OUT outputs the whole word of R0 and changes nothing else. -/
def Obligations.OutAppendsR0 : Prop :=
  ∀ s : State, exec .trapOut s = .next { s with output := s.output ++ [s.getReg 0] }

/-- 44_trap.md R208: HALT, vector 0x25, clears `running` and changes nothing else; the halt check of the next cycle
ends the run. -/
def Obligations.HaltClearsRunningAndEndsTheRun : Prop :=
  decodeTrap 0x25 = .trapHalt ∧
  (∀ s : State, exec .trapHalt s = .next { s with running := false }) ∧
  (∀ s t : State, s.activity = .betweenCycles → s.relay = [] → exec .trapHalt s = .next t →
    step t = .next { t with activity := .runOver })

/-- 44_trap.md R204: a string in ordinary memory, the addresses mod 2^16: the words before the first zero word are
output in order, and nothing else changes. -/
def Obligations.PutsOutputsTheWordsBeforeTheZeroWord : Prop :=
  ∀ (s : State) (n : Nat), n < 65536 →
    (∀ k ≤ n, s.getReg 0 + BitVec.ofNat 16 k ≠ 0xFE00 ∧ s.getReg 0 + BitVec.ofNat 16 k ≠ 0xFE02) →
    (∀ k < n, s.cell (s.getReg 0 + BitVec.ofNat 16 k) ≠ 0) → s.cell (s.getReg 0 + BitVec.ofNat 16 n) = 0 →
    exec .trapPuts s = .next { s with
      output := s.output ++ (List.range n).map (fun k => s.cell (s.getReg 0 + BitVec.ofNat 16 k)),
      activity := .betweenCycles }

/-- 44_trap.md R206 (D13, D14): a packed string in ordinary memory: low byte first, a zero byte stops; with
TRAP_STUB_MODE it is a no-op. -/
def Obligations.PutspOutputsTheBytesBeforeTheZeroByte : Prop :=
  (∀ (s : State) (n : Nat), n < 65536 →
    (∀ k ≤ n, s.getReg 0 + BitVec.ofNat 16 k ≠ 0xFE00 ∧ s.getReg 0 + BitVec.ofNat 16 k ≠ 0xFE02) →
    (∀ k < n, (s.cell (s.getReg 0 + BitVec.ofNat 16 k)).extractLsb' 0 8 ≠ 0#8 ∧
      (s.cell (s.getReg 0 + BitVec.ofNat 16 k)).extractLsb' 8 8 ≠ 0#8) →
    (s.cell (s.getReg 0 + BitVec.ofNat 16 n)).extractLsb' 0 8 = 0#8 ∨
      (s.cell (s.getReg 0 + BitVec.ofNat 16 n)).extractLsb' 8 8 = 0#8 →
    exec .trapPutsp s = .next { s with
      output := s.output ++
        (List.range n).flatMap (fun k =>
          [zext ((s.cell (s.getReg 0 + BitVec.ofNat 16 k)).extractLsb' 0 8),
           zext ((s.cell (s.getReg 0 + BitVec.ofNat 16 k)).extractLsb' 8 8)]) ++
        (if (s.cell (s.getReg 0 + BitVec.ofNat 16 n)).extractLsb' 0 8 = 0#8 then []
         else [zext ((s.cell (s.getReg 0 + BitVec.ofNat 16 n)).extractLsb' 0 8)]),
      activity := .betweenCycles }) ∧
  (∀ (cfg : Config) (s : State), cfg.trapStubMode = true → putspService cfg s = s)

/-- 44_trap.md R204, R206 (D10): a string of any length, over the device registers or not, whose unbounded loop ends:
the instruction and enough further steps end in the state the loop ends in (cutting the work into steps is the
model's own, log 4). -/
def Obligations.EveryTerminatedStringIsFinished : Prop :=
  (∀ (s t : State) (n : Nat), PutsRun n (s.getReg 0) s t →
    ∃ u k, exec .trapPuts s = .next u ∧ StepsTo k u t.finish) ∧
  (∀ (s t : State) (n : Nat), PutspRun n (s.getReg 0) s t →
    ∃ u k, exec .trapPutsp s = .next u ∧ StepsTo k u t.finish)

/-- 44_trap.md R204, R206 (D20): when no zero is ever found the service reads forever: after the instruction and any
number of further steps the block is still inside the string. -/
def Obligations.UnterminatedStringNeverEnds : Prop :=
  (∀ s : State, (∀ n t, ¬ PutsRun n (s.getReg 0) s t) →
    ∃ u, exec .trapPuts s = .next u ∧ ∀ k, ∃ v a, StepsTo k u v ∧ v.activity = .puts a) ∧
  (∀ s : State, (∀ n t, ¬ PutspRun n (s.getReg 0) s t) →
    ∃ u, exec .trapPutsp s = .next u ∧ ∀ k, ∃ v a, StepsTo k u v ∧ v.activity = .putsp a)

/-- 70_reset_and_hazards.md R272(a) (derived there): a key queued before the first GETC's cycle, with the ready bit
clear, goes to the data register, and GETC does not see it. -/
def Obligations.DrainedKeyIsNotSeenByGetc : Prop :=
  ∀ (s : State) (c : Word), s.mem.wf = true → s.activity = .betweenCycles → s.running = true → s.relay = [] →
    s.queue = [c] → s.ready = false → s.pc ≠ 0xFE00 → s.pc ≠ 0xFE02 → decode (s.cell s.pc) = .trapGetc →
    ∃ t, step s = .next t ∧ t.activity = .waitGetc ∧ t.queue = [] ∧ t.cell 0xFE02 = c ∧ t.kbAvail = true ∧
      t.ready = true ∧ (∀ r, t.getReg r = s.getReg r)

/-! ### Whole-machine rules -/

/-- 10_state.md R21 (derived there): an instruction writes no general register but its DR, R7 of the calls, R0 of
GETC and IN. -/
def Obligations.OnlyTheNamedRegisterIsWritten : Prop :=
  ∀ (i : Instr) (s t : State) (r : RegIdx), i.wellFormed = true → exec i s = .next t → writesReg i ≠ some r →
    t.getReg r = s.getReg r

/-- 10_state.md R21 (derived there): what an instruction does, to every piece of state, does not depend on a general
register it does not read. -/
def Obligations.OnlyTheReadRegistersMatter : Prop :=
  ∀ (i : Instr) (s t : State) (r : RegIdx), i.wellFormed = true → r ∉ readsRegs i → AgreeExcept r s t →
    ∃ s' t', exec i s = .next s' ∧ exec i t = .next t' ∧ AgreeExcept r s' t'

/-- 10_state.md R27 (D12): cc is written by ADD, NOT, LD, LDI, LDR and LEA only, from their result. -/
def Obligations.CcIsWrittenByTheSixInstructionsOnly : Prop :=
  (∀ (i : Instr) (s t : State), i.wellFormed = true → exec i s = .next t → writesCC i = false → t.cc = s.cc) ∧
  (∀ (i : Instr) (s t : State), exec i s = .next t → writesCC i = true →
    ∃ dr, writesReg i = some dr ∧ t.cc = ccOf (t.getReg dr))

/-- 10_state.md R24: beyond the fetch's increment, pc is written by BR, JMP, RET, JSR and JSRR only. -/
def Obligations.PcIsWrittenByControlTransferOnly : Prop :=
  ∀ (i : Instr) (s t : State), i.wellFormed = true → exec i s = .next t → writesPc i = false → t.pc = s.pc

/-! ### Reset and load -/

/-- 70_reset_and_hazards.md R260: the values after reset. R0..R7 and cc are parameters of the spec's own (D2, D3;
log 6). -/
def Obligations.ResetHasTheStatedValues : Prop :=
  (∀ r, State.reset.getReg r = 0) ∧ State.reset.pc = 0x3000 ∧ State.reset.cc = .z ∧ State.reset.running = true ∧
  State.reset.queue = [] ∧ State.reset.kbAvail = false ∧ (∀ a, State.reset.cell a = 0) ∧ State.reset.output = [] ∧
  (∀ (cfg : Config) (r : RegIdx), (State.resetWith cfg).getReg r = cfg.gprReset ∧
    (State.resetWith cfg).cc = cfg.ccReset)

/-- 70_reset_and_hazards.md R262 (D18): the words of an image, and where the load puts them: from the origin on,
mod 2^16, each in its own cell, no other cell touched, nothing else changed; an image of
fewer than one word, and no other, is the startup error. -/
def Obligations.LoadPlacesTheImage : Prop :=
  (∀ (image : List Byte) (k : Nat) (h : 2 * k + 1 < image.length),
    (imageWords image)[k]? = some (image[2 * k] ++ image[2 * k + 1])) ∧
  (∀ image : List Byte, (imageWords image).length = image.length / 2) ∧
  (∀ (s : State) (image : List Byte) (origin : Word) (ws : List Word), s.mem.wf = true →
    imageWords image = origin :: ws → ws.length ≤ 65536 →
    ∃ t, s.load image = .ok t ∧ t = { s with mem := t.mem } ∧
      (∀ (k : Nat) (h : k < ws.length), t.cell (origin + BitVec.ofNat 16 k) = ws[k]) ∧
      (∀ a : Word, (∀ k, k < ws.length → a ≠ origin + BitVec.ofNat 16 k) → t.cell a = s.cell a)) ∧
  (∀ (s : State) (image : List Byte), s.load image = .error .imageTooShort ↔ image.length < 2)

/-! ### The Input Relay -/

/-- 20_memory.md R70, R71, 40_control_unit.md R128: what the relay's two actions do, what happens at a point where it
may act, by the first action to come, and that no step puts an action into the list, so that after a halt request
nothing is ever pushed. (The list and its `pass` marks are the model's own, log 3.) -/
def Obligations.RelayPointTakesTheDueActions : Prop :=
  (∀ (s : State) (c : Word), s.pushKey c = { s with queue := s.queue ++ [c] }) ∧
  (∀ s : State, s.haltRequest = { s with running := false, relay := [] }) ∧
  (∀ s : State, s.relay = [] → s.relayPoint = s) ∧
  (∀ (s : State) (c : Word) (rest : List RelayEvent), s.relay = .push c :: rest →
    s.relayPoint = ({ s with queue := s.queue ++ [c], relay := rest } : State).relayPoint) ∧
  (∀ (s : State) (rest : List RelayEvent), s.relay = .halt :: rest →
    s.relayPoint = { s with running := false, relay := [] }) ∧
  (∀ (s : State) (rest : List RelayEvent), s.relay = .pass :: rest → s.relayPoint = { s with relay := rest }) ∧
  (∀ s t : State, step s = .next t → t.relay <:+ s.relay) ∧
  (∀ s t : State, step s.haltRequest = .next t → t.relay = [] ∧ t.queue <:+ s.queue)
end

