-- ==== Sys2Proof/Laws/Encoding.lean ====
section
/-! SUPPORT. Words bit by bit and as numbers: what the encoder writes and what the decoder's fields read. -/

namespace Sys2Proof

/-- Two words with the same 16 bits are the same word. -/
theorem word_ext {v w : Word} (h : ∀ i : Fin 16, v.getLsbD i = w.getLsbD i) : v = w :=
  BitVec.eq_of_getLsbD_eq fun i hi => h ⟨i, hi⟩

/-- A concatenation as a number. -/
theorem toNat_cat {m n : Nat} (x : BitVec m) (y : BitVec n) : (x ++ y).toNat = x.toNat * 2 ^ n + y.toNat := by
  rw [BitVec.toNat_append, ← Nat.shiftLeft_add_eq_or_of_lt y.isLt, Nat.shiftLeft_eq]

/-- A field of a word as a number. -/
theorem toNat_field (w : Word) (lo len : Nat) : (w.extractLsb' lo len).toNat = w.toNat / 2 ^ lo % 2 ^ len := by
  simp [Nat.shiftRight_eq_div_pow]

/-- One bit of a word as a number. -/
theorem getLsbD_eq_div (w : Word) (i : Nat) : w.getLsbD i = decide (w.toNat / 2 ^ i % 2 = 1) := by
  simp [BitVec.getLsbD, Nat.testBit_eq_decide_div_mod_eq]

/-! ### The encoder's words as numbers -/

theorem encode_br_toNat (mask : BitVec 3) (off : BitVec 9) :
    (encode (.br mask off)).toNat = mask.toNat * 512 + off.toNat := by
  show (0x0#4 ++ mask ++ off).toNat = _
  simp only [toNat_cat]; simp

theorem encode_addReg_toNat (dr sr1 sr2 : RegIdx) :
    (encode (.addReg dr sr1 sr2)).toNat = 0x1000 + dr.toNat * 512 + sr1.toNat * 64 + sr2.toNat := by
  show (0x1#4 ++ dr ++ sr1 ++ 0b000#3 ++ sr2).toNat = _
  simp only [toNat_cat]; simp; omega

theorem encode_addImm_toNat (dr sr1 : RegIdx) (imm : BitVec 5) :
    (encode (.addImm dr sr1 imm)).toNat = 0x1020 + dr.toNat * 512 + sr1.toNat * 64 + imm.toNat := by
  show (0x1#4 ++ dr ++ sr1 ++ 0b1#1 ++ imm).toNat = _
  simp only [toNat_cat]; simp; omega

theorem encode_ld_toNat (dr : RegIdx) (off : BitVec 9) :
    (encode (.ld dr off)).toNat = 0x2000 + dr.toNat * 512 + off.toNat := by
  show (0x2#4 ++ dr ++ off).toNat = _
  simp only [toNat_cat]; simp; omega

theorem encode_st_toNat (sr : RegIdx) (off : BitVec 9) :
    (encode (.st sr off)).toNat = 0x3000 + sr.toNat * 512 + off.toNat := by
  show (0x3#4 ++ sr ++ off).toNat = _
  simp only [toNat_cat]; simp; omega

theorem encode_jsrr_toNat (base : RegIdx) :
    (encode (.jsrr base)).toNat = 0x4000 + base.toNat * 64 := by
  show (0x4#4 ++ 0b000#3 ++ base ++ 0b000000#6).toNat = _
  simp only [toNat_cat]; simp; omega

theorem encode_jsr_toNat (off : BitVec 11) :
    (encode (.jsr off)).toNat = 0x4800 + off.toNat := by
  show (0x4#4 ++ 0b1#1 ++ off).toNat = _
  simp only [toNat_cat]; simp

theorem encode_andReg_toNat (dr sr1 sr2 : RegIdx) :
    (encode (.andReg dr sr1 sr2)).toNat = 0x5000 + dr.toNat * 512 + sr1.toNat * 64 + sr2.toNat := by
  show (0x5#4 ++ dr ++ sr1 ++ 0b000#3 ++ sr2).toNat = _
  simp only [toNat_cat]; simp; omega

theorem encode_andImm_toNat (dr sr1 : RegIdx) (imm : BitVec 5) :
    (encode (.andImm dr sr1 imm)).toNat = 0x5020 + dr.toNat * 512 + sr1.toNat * 64 + imm.toNat := by
  show (0x5#4 ++ dr ++ sr1 ++ 0b1#1 ++ imm).toNat = _
  simp only [toNat_cat]; simp; omega

theorem encode_ldr_toNat (dr base : RegIdx) (off : BitVec 6) :
    (encode (.ldr dr base off)).toNat = 0x6000 + dr.toNat * 512 + base.toNat * 64 + off.toNat := by
  show (0x6#4 ++ dr ++ base ++ off).toNat = _
  simp only [toNat_cat]; simp; omega

theorem encode_str_toNat (sr base : RegIdx) (off : BitVec 6) :
    (encode (.str sr base off)).toNat = 0x7000 + sr.toNat * 512 + base.toNat * 64 + off.toNat := by
  show (0x7#4 ++ sr ++ base ++ off).toNat = _
  simp only [toNat_cat]; simp; omega

theorem encode_not_toNat (dr sr : RegIdx) :
    (encode (.not dr sr)).toNat = 0x9000 + dr.toNat * 512 + sr.toNat * 64 := by
  show (0x9#4 ++ dr ++ sr ++ 0b000000#6).toNat = _
  simp only [toNat_cat]; simp; omega

theorem encode_ldi_toNat (dr : RegIdx) (off : BitVec 9) :
    (encode (.ldi dr off)).toNat = 0xA000 + dr.toNat * 512 + off.toNat := by
  show (0xA#4 ++ dr ++ off).toNat = _
  simp only [toNat_cat]; simp; omega

theorem encode_sti_toNat (sr : RegIdx) (off : BitVec 9) :
    (encode (.sti sr off)).toNat = 0xB000 + sr.toNat * 512 + off.toNat := by
  show (0xB#4 ++ sr ++ off).toNat = _
  simp only [toNat_cat]; simp; omega

theorem encode_jmp_toNat (base : RegIdx) :
    (encode (.jmp base)).toNat = 0xC000 + base.toNat * 64 := by
  show (0xC#4 ++ 0b000#3 ++ base ++ 0b000000#6).toNat = _
  simp only [toNat_cat]; simp; omega

theorem encode_lea_toNat (dr : RegIdx) (off : BitVec 9) :
    (encode (.lea dr off)).toNat = 0xE000 + dr.toNat * 512 + off.toNat := by
  show (0xE#4 ++ dr ++ off).toNat = _
  simp only [toNat_cat]; simp; omega

theorem encode_trap_toNat (vect : Byte) :
    (encode (.trap vect)).toNat = 0xF000 + vect.toNat := by
  show (0xF#4 ++ 0x0#4 ++ vect).toNat = _
  simp only [toNat_cat]; simp

end Sys2Proof
end

