-- ==== Sys2Proof/Laws/Memory.lean ====
section
/-! SUPPORT. The memory array: read after write, the canonical form kept by every operation, and equal memories
equal data. -/

namespace Sys2Proof.Machine

@[simp] theorem Memory.read_nil (a : Nat) : Memory.read [] a = 0#16 := rfl

theorem Memory.read_cons (k : Nat) (v : Word) (m : Memory) (a : Nat) :
    Memory.read ((k, v) :: m) a = if k = a then v else Memory.read m a := rfl

/-- A piece of one cell in front of a list reads as that cell, provided the list does not list its address. -/
theorem Memory.read_cell_append (a : Nat) (v : Word) (m : Memory) (b : Nat)
    (h : Memory.read m a = Memory.unlisted) :
    Memory.read (Memory.cell a v ++ m) b = if a = b then v else Memory.read m b := by
  unfold Memory.cell
  split
  · split
    · subst_vars; simpa using h
    · simp
  · simp [Memory.read_cons]

/-- Below every listed address, a memory reads as unlisted. -/
theorem Memory.read_of_lt {m : Memory} {a : Nat} (h : ∀ c ∈ m, a < c.1) :
    Memory.read m a = Memory.unlisted := by
  induction m with
  | nil => rfl
  | cons c m ih =>
    obtain ⟨k, v⟩ := c
    have hk : a < k := h (k, v) (by simp)
    rw [Memory.read_cons, if_neg (by omega)]
    exact ih fun d hd => h d (by simp [hd])

theorem Memory.wf_cons {k : Nat} {v : Word} {m : Memory} :
    Memory.wf ((k, v) :: m) = true ↔
      k < 65536 ∧ v ≠ Memory.unlisted ∧ (∀ c ∈ m, k < c.1) ∧ Memory.wf m = true := by
  simp [Memory.wf, and_assoc]

/-- Read after write: the written cell reads as written, every other as before. -/
theorem Memory.read_write {m : Memory} (hm : m.wf = true) (a b : Nat) (v : Word) :
    Memory.read (m.write a v) b = if a = b then v else m.read b := by
  induction m with
  | nil => simpa [Memory.write] using Memory.read_cell_append a v [] b rfl
  | cons c m ih =>
    obtain ⟨k, x⟩ := c
    obtain ⟨_, _, hlt, hwf⟩ := Memory.wf_cons.mp hm
    unfold Memory.write
    split
    · refine Memory.read_cell_append a v _ b (Memory.read_of_lt ?_)
      intro c hc
      rcases List.mem_cons.mp hc with rfl | hc
      · assumption
      · have := hlt c hc; simp_all; omega
    · split
      · subst a
        rw [Memory.read_cell_append k v m b (Memory.read_of_lt hlt), Memory.read_cons]
        split <;> rfl
      · rw [Memory.read_cons, Memory.read_cons, ih hwf]
        split <;> split <;> first | rfl | omega

theorem Memory.cell_mem {a : Nat} {v : Word} {c : Nat × Word} (h : c ∈ Memory.cell a v) : c = (a, v) := by
  unfold Memory.cell at h; split at h <;> simp_all

/-- A cell listed after a write is the written one or was listed before. -/
theorem Memory.mem_write {m : Memory} {a : Nat} {v : Word} {c : Nat × Word} (h : c ∈ m.write a v) :
    c = (a, v) ∨ c ∈ m := by
  induction m with
  | nil => exact .inl (Memory.cell_mem h)
  | cons d m ih =>
    unfold Memory.write at h
    split at h
    · rcases List.mem_append.mp h with h | h
      · exact .inl (Memory.cell_mem h)
      · exact .inr h
    · split at h
      · rcases List.mem_append.mp h with h | h
        · exact .inl (Memory.cell_mem h)
        · exact .inr (List.mem_cons_of_mem _ h)
      · rcases List.mem_cons.mp h with rfl | h
        · exact .inr (by simp)
        · exact (ih h).imp id (List.mem_cons_of_mem _)

theorem Memory.wf_cell_append {a : Nat} {v : Word} {m : Memory} (ha : a < 65536) (hm : m.wf = true)
    (h : ∀ c ∈ m, a < c.1) : Memory.wf (Memory.cell a v ++ m) = true := by
  unfold Memory.cell
  split
  · simpa using hm
  · exact Memory.wf_cons.mpr ⟨ha, by assumption, h, hm⟩

/-- A write inside the address space keeps the canonical form. -/
theorem Memory.wf_write {m : Memory} (hm : m.wf = true) {a : Nat} (ha : a < 65536) (v : Word) :
    (m.write a v).wf = true := by
  induction m with
  | nil => simpa [Memory.write] using Memory.wf_cell_append (v := v) ha hm (by simp)
  | cons c m ih =>
    obtain ⟨k, x⟩ := c
    obtain ⟨hk, hx, hlt, hwf⟩ := Memory.wf_cons.mp hm
    unfold Memory.write
    split
    · refine Memory.wf_cell_append ha hm ?_
      intro c hc
      rcases List.mem_cons.mp hc with rfl | hc
      · assumption
      · have := hlt c hc; simp_all; omega
    · split
      · subst a; exact Memory.wf_cell_append ha hwf hlt
      · refine Memory.wf_cons.mpr ⟨hk, hx, ?_, ih hwf⟩
        intro c hc
        rcases Memory.mem_write hc with rfl | hc
        · simp; omega
        · exact hlt c hc

theorem Memory.read_ne_unlisted_iff {m : Memory} (hm : m.wf = true) (a : Nat) :
    m.read a ≠ Memory.unlisted ↔ ∃ v, (a, v) ∈ m := by
  induction m with
  | nil => simp [Memory.unlisted]
  | cons c m ih =>
    obtain ⟨k, x⟩ := c
    obtain ⟨_, hx, hlt, hwf⟩ := Memory.wf_cons.mp hm
    rw [Memory.read_cons]
    by_cases h : k = a
    · subst h; simp only [if_true]; exact ⟨fun _ => ⟨x, by simp⟩, fun _ => hx⟩
    · simp only [if_neg h, ih hwf, List.mem_cons, Prod.mk.injEq]
      exact ⟨fun ⟨v, hv⟩ => ⟨v, .inr hv⟩, fun ⟨v, hv⟩ => ⟨v, hv.resolve_left fun e => h e.1.symm⟩⟩

/-- Two memories in canonical form that read the same everywhere are the same list. -/
theorem Memory.ext_read {m n : Memory} (hm : m.wf = true) (hn : n.wf = true)
    (h : ∀ a, m.read a = n.read a) : m = n := by
  induction m generalizing n with
  | nil =>
    cases n with
    | nil => rfl
    | cons c n =>
      obtain ⟨k, x⟩ := c
      have := h k
      rw [Memory.read_cons, if_pos rfl] at this
      exact absurd this.symm (Memory.wf_cons.mp hn).2.1
  | cons c m ih =>
    obtain ⟨k, x⟩ := c
    obtain ⟨_, hx, hlt, hwf⟩ := Memory.wf_cons.mp hm
    cases n with
    | nil =>
      have := h k
      rw [Memory.read_cons, if_pos rfl] at this
      exact absurd this hx
    | cons d n =>
      obtain ⟨j, y⟩ := d
      obtain ⟨_, hy, hlt', hwf'⟩ := Memory.wf_cons.mp hn
      have hkj : k = j := by
        rcases Nat.lt_trichotomy k j with hl | rfl | hl
        · have := h k
          rw [Memory.read_cons, if_pos rfl, Memory.read_cons, if_neg (by omega),
            Memory.read_of_lt fun c hc => Nat.lt_trans hl (hlt' c hc)] at this
          exact absurd this hx
        · rfl
        · have := h j
          rw [Memory.read_cons, if_neg (by omega), Memory.read_cons, if_pos rfl,
            Memory.read_of_lt fun c hc => Nat.lt_trans hl (hlt c hc)] at this
          exact absurd this.symm hy
      subst hkj
      have hxy : x = y := by simpa [Memory.read_cons] using h k
      subst hxy
      rw [ih hwf hwf' fun a => ?_]
      by_cases ha : k = a
      · subst ha; rw [Memory.read_of_lt hlt, Memory.read_of_lt hlt']
      · have := h a; simpa [Memory.read_cons, ha] using this

end Sys2Proof.Machine
end

