-- ==== Sys2Proof/Laws/State.lean ====
section
/-! SUPPORT. One lemma per field per update, and reading registers and cells after an update. -/

namespace Sys2Proof.Machine

/-! ### setReg -/

@[simp] theorem State.setReg_regs (s : State) (i : RegIdx) (v : Word) : (s.setReg i v).regs = s.regs.set i.toNat v := rfl
@[simp] theorem State.setReg_pc (s : State) (i : RegIdx) (v : Word) : (s.setReg i v).pc = s.pc := rfl
@[simp] theorem State.setReg_cc (s : State) (i : RegIdx) (v : Word) : (s.setReg i v).cc = s.cc := rfl
@[simp] theorem State.setReg_running (s : State) (i : RegIdx) (v : Word) : (s.setReg i v).running = s.running := rfl
@[simp] theorem State.setReg_queue (s : State) (i : RegIdx) (v : Word) : (s.setReg i v).queue = s.queue := rfl
@[simp] theorem State.setReg_kbAvail (s : State) (i : RegIdx) (v : Word) : (s.setReg i v).kbAvail = s.kbAvail := rfl
@[simp] theorem State.setReg_mem (s : State) (i : RegIdx) (v : Word) : (s.setReg i v).mem = s.mem := rfl
@[simp] theorem State.setReg_ir (s : State) (i : RegIdx) (v : Word) : (s.setReg i v).ir = s.ir := rfl
@[simp] theorem State.setReg_output (s : State) (i : RegIdx) (v : Word) : (s.setReg i v).output = s.output := rfl
@[simp] theorem State.setReg_activity (s : State) (i : RegIdx) (v : Word) : (s.setReg i v).activity = s.activity := rfl
@[simp] theorem State.setReg_relay (s : State) (i : RegIdx) (v : Word) : (s.setReg i v).relay = s.relay := rfl

/-! ### setPc -/

@[simp] theorem State.setPc_regs (s : State) (v : Word) : (s.setPc v).regs = s.regs := rfl
@[simp] theorem State.setPc_pc (s : State) (v : Word) : (s.setPc v).pc = v := rfl
@[simp] theorem State.setPc_cc (s : State) (v : Word) : (s.setPc v).cc = s.cc := rfl
@[simp] theorem State.setPc_running (s : State) (v : Word) : (s.setPc v).running = s.running := rfl
@[simp] theorem State.setPc_queue (s : State) (v : Word) : (s.setPc v).queue = s.queue := rfl
@[simp] theorem State.setPc_kbAvail (s : State) (v : Word) : (s.setPc v).kbAvail = s.kbAvail := rfl
@[simp] theorem State.setPc_mem (s : State) (v : Word) : (s.setPc v).mem = s.mem := rfl
@[simp] theorem State.setPc_ir (s : State) (v : Word) : (s.setPc v).ir = s.ir := rfl
@[simp] theorem State.setPc_output (s : State) (v : Word) : (s.setPc v).output = s.output := rfl
@[simp] theorem State.setPc_activity (s : State) (v : Word) : (s.setPc v).activity = s.activity := rfl
@[simp] theorem State.setPc_relay (s : State) (v : Word) : (s.setPc v).relay = s.relay := rfl

/-! ### setCell -/

@[simp] theorem State.setCell_regs (s : State) (a v : Word) : (s.setCell a v).regs = s.regs := rfl
@[simp] theorem State.setCell_pc (s : State) (a v : Word) : (s.setCell a v).pc = s.pc := rfl
@[simp] theorem State.setCell_cc (s : State) (a v : Word) : (s.setCell a v).cc = s.cc := rfl
@[simp] theorem State.setCell_running (s : State) (a v : Word) : (s.setCell a v).running = s.running := rfl
@[simp] theorem State.setCell_queue (s : State) (a v : Word) : (s.setCell a v).queue = s.queue := rfl
@[simp] theorem State.setCell_kbAvail (s : State) (a v : Word) : (s.setCell a v).kbAvail = s.kbAvail := rfl
@[simp] theorem State.setCell_mem (s : State) (a v : Word) : (s.setCell a v).mem = s.mem.write a.toNat v := rfl
@[simp] theorem State.setCell_ir (s : State) (a v : Word) : (s.setCell a v).ir = s.ir := rfl
@[simp] theorem State.setCell_output (s : State) (a v : Word) : (s.setCell a v).output = s.output := rfl
@[simp] theorem State.setCell_activity (s : State) (a v : Word) : (s.setCell a v).activity = s.activity := rfl
@[simp] theorem State.setCell_relay (s : State) (a v : Word) : (s.setCell a v).relay = s.relay := rfl

/-! ### memWrite -/

@[simp] theorem State.memWrite_regs (s : State) (a v : Word) : (s.memWrite a v).regs = s.regs := rfl
@[simp] theorem State.memWrite_pc (s : State) (a v : Word) : (s.memWrite a v).pc = s.pc := rfl
@[simp] theorem State.memWrite_cc (s : State) (a v : Word) : (s.memWrite a v).cc = s.cc := rfl
@[simp] theorem State.memWrite_running (s : State) (a v : Word) : (s.memWrite a v).running = s.running := rfl
@[simp] theorem State.memWrite_queue (s : State) (a v : Word) : (s.memWrite a v).queue = s.queue := rfl
@[simp] theorem State.memWrite_kbAvail (s : State) (a v : Word) : (s.memWrite a v).kbAvail = s.kbAvail := rfl
@[simp] theorem State.memWrite_mem (s : State) (a v : Word) : (s.memWrite a v).mem = s.mem.write a.toNat v := rfl
@[simp] theorem State.memWrite_ir (s : State) (a v : Word) : (s.memWrite a v).ir = s.ir := rfl
@[simp] theorem State.memWrite_output (s : State) (a v : Word) : (s.memWrite a v).output = s.output := rfl
@[simp] theorem State.memWrite_activity (s : State) (a v : Word) : (s.memWrite a v).activity = s.activity := rfl
@[simp] theorem State.memWrite_relay (s : State) (a v : Word) : (s.memWrite a v).relay = s.relay := rfl

/-! ### emit -/

@[simp] theorem State.emit_regs (s : State) (c : Word) : (s.emit c).regs = s.regs := rfl
@[simp] theorem State.emit_pc (s : State) (c : Word) : (s.emit c).pc = s.pc := rfl
@[simp] theorem State.emit_cc (s : State) (c : Word) : (s.emit c).cc = s.cc := rfl
@[simp] theorem State.emit_running (s : State) (c : Word) : (s.emit c).running = s.running := rfl
@[simp] theorem State.emit_queue (s : State) (c : Word) : (s.emit c).queue = s.queue := rfl
@[simp] theorem State.emit_kbAvail (s : State) (c : Word) : (s.emit c).kbAvail = s.kbAvail := rfl
@[simp] theorem State.emit_mem (s : State) (c : Word) : (s.emit c).mem = s.mem := rfl
@[simp] theorem State.emit_ir (s : State) (c : Word) : (s.emit c).ir = s.ir := rfl
@[simp] theorem State.emit_output (s : State) (c : Word) : (s.emit c).output = s.output ++ [c] := rfl
@[simp] theorem State.emit_activity (s : State) (c : Word) : (s.emit c).activity = s.activity := rfl
@[simp] theorem State.emit_relay (s : State) (c : Word) : (s.emit c).relay = s.relay := rfl

/-! ### finish -/

@[simp] theorem State.finish_regs (s : State) : (s.finish).regs = s.regs := rfl
@[simp] theorem State.finish_pc (s : State) : (s.finish).pc = s.pc := rfl
@[simp] theorem State.finish_cc (s : State) : (s.finish).cc = s.cc := rfl
@[simp] theorem State.finish_running (s : State) : (s.finish).running = s.running := rfl
@[simp] theorem State.finish_queue (s : State) : (s.finish).queue = s.queue := rfl
@[simp] theorem State.finish_kbAvail (s : State) : (s.finish).kbAvail = s.kbAvail := rfl
@[simp] theorem State.finish_mem (s : State) : (s.finish).mem = s.mem := rfl
@[simp] theorem State.finish_ir (s : State) : (s.finish).ir = s.ir := rfl
@[simp] theorem State.finish_output (s : State) : (s.finish).output = s.output := rfl
@[simp] theorem State.finish_activity (s : State) : (s.finish).activity = .betweenCycles := rfl
@[simp] theorem State.finish_relay (s : State) : (s.finish).relay = s.relay := rfl

/-! ### pushKey -/

@[simp] theorem State.pushKey_regs (s : State) (c : Word) : (s.pushKey c).regs = s.regs := rfl
@[simp] theorem State.pushKey_pc (s : State) (c : Word) : (s.pushKey c).pc = s.pc := rfl
@[simp] theorem State.pushKey_cc (s : State) (c : Word) : (s.pushKey c).cc = s.cc := rfl
@[simp] theorem State.pushKey_running (s : State) (c : Word) : (s.pushKey c).running = s.running := rfl
@[simp] theorem State.pushKey_queue (s : State) (c : Word) : (s.pushKey c).queue = s.queue ++ [c] := rfl
@[simp] theorem State.pushKey_kbAvail (s : State) (c : Word) : (s.pushKey c).kbAvail = s.kbAvail := rfl
@[simp] theorem State.pushKey_mem (s : State) (c : Word) : (s.pushKey c).mem = s.mem := rfl
@[simp] theorem State.pushKey_ir (s : State) (c : Word) : (s.pushKey c).ir = s.ir := rfl
@[simp] theorem State.pushKey_output (s : State) (c : Word) : (s.pushKey c).output = s.output := rfl
@[simp] theorem State.pushKey_activity (s : State) (c : Word) : (s.pushKey c).activity = s.activity := rfl
@[simp] theorem State.pushKey_relay (s : State) (c : Word) : (s.pushKey c).relay = s.relay := rfl

/-! ### haltRequest -/

@[simp] theorem State.haltRequest_regs (s : State) : (s.haltRequest).regs = s.regs := rfl
@[simp] theorem State.haltRequest_pc (s : State) : (s.haltRequest).pc = s.pc := rfl
@[simp] theorem State.haltRequest_cc (s : State) : (s.haltRequest).cc = s.cc := rfl
@[simp] theorem State.haltRequest_running (s : State) : (s.haltRequest).running = false := rfl
@[simp] theorem State.haltRequest_queue (s : State) : (s.haltRequest).queue = s.queue := rfl
@[simp] theorem State.haltRequest_kbAvail (s : State) : (s.haltRequest).kbAvail = s.kbAvail := rfl
@[simp] theorem State.haltRequest_mem (s : State) : (s.haltRequest).mem = s.mem := rfl
@[simp] theorem State.haltRequest_ir (s : State) : (s.haltRequest).ir = s.ir := rfl
@[simp] theorem State.haltRequest_output (s : State) : (s.haltRequest).output = s.output := rfl
@[simp] theorem State.haltRequest_activity (s : State) : (s.haltRequest).activity = s.activity := rfl
@[simp] theorem State.haltRequest_relay (s : State) : (s.haltRequest).relay = [] := rfl

/-! ### setReady -/

@[simp] theorem State.setReady_regs (s : State) (b : Bool) : (s.setReady b).regs = s.regs := rfl
@[simp] theorem State.setReady_pc (s : State) (b : Bool) : (s.setReady b).pc = s.pc := rfl
@[simp] theorem State.setReady_cc (s : State) (b : Bool) : (s.setReady b).cc = s.cc := rfl
@[simp] theorem State.setReady_running (s : State) (b : Bool) : (s.setReady b).running = s.running := rfl
@[simp] theorem State.setReady_queue (s : State) (b : Bool) : (s.setReady b).queue = s.queue := rfl
@[simp] theorem State.setReady_kbAvail (s : State) (b : Bool) : (s.setReady b).kbAvail = s.kbAvail := rfl
@[simp] theorem State.setReady_mem (s : State) (b : Bool) : (s.setReady b).mem = s.mem.write kbsr.toNat (withReady (s.cell kbsr) b) := rfl
@[simp] theorem State.setReady_ir (s : State) (b : Bool) : (s.setReady b).ir = s.ir := rfl
@[simp] theorem State.setReady_output (s : State) (b : Bool) : (s.setReady b).output = s.output := rfl
@[simp] theorem State.setReady_activity (s : State) (b : Bool) : (s.setReady b).activity = s.activity := rfl
@[simp] theorem State.setReady_relay (s : State) (b : Bool) : (s.setReady b).relay = s.relay := rfl

/-! ### deliver -/

@[simp] theorem State.deliver_regs (s : State) (c : Word) : (s.deliver c).regs = s.regs := rfl
@[simp] theorem State.deliver_pc (s : State) (c : Word) : (s.deliver c).pc = s.pc := rfl
@[simp] theorem State.deliver_cc (s : State) (c : Word) : (s.deliver c).cc = s.cc := rfl
@[simp] theorem State.deliver_running (s : State) (c : Word) : (s.deliver c).running = s.running := rfl
@[simp] theorem State.deliver_queue (s : State) (c : Word) : (s.deliver c).queue = s.queue := rfl
@[simp] theorem State.deliver_kbAvail (s : State) (c : Word) : (s.deliver c).kbAvail = true := rfl
@[simp] theorem State.deliver_mem (s : State) (c : Word) : (s.deliver c).mem = s.mem.write kbdr.toNat c := rfl
@[simp] theorem State.deliver_ir (s : State) (c : Word) : (s.deliver c).ir = s.ir := rfl
@[simp] theorem State.deliver_output (s : State) (c : Word) : (s.deliver c).output = s.output := rfl
@[simp] theorem State.deliver_activity (s : State) (c : Word) : (s.deliver c).activity = s.activity := rfl
@[simp] theorem State.deliver_relay (s : State) (c : Word) : (s.deliver c).relay = s.relay := rfl

/-! ### setFlags -/

@[simp] theorem State.setFlags_regs (s : State) (i : RegIdx) : (s.setFlags i).regs = s.regs := rfl
@[simp] theorem State.setFlags_pc (s : State) (i : RegIdx) : (s.setFlags i).pc = s.pc := rfl
@[simp] theorem State.setFlags_cc (s : State) (i : RegIdx) : (s.setFlags i).cc = ccOf (s.getReg i) := rfl
@[simp] theorem State.setFlags_running (s : State) (i : RegIdx) : (s.setFlags i).running = s.running := rfl
@[simp] theorem State.setFlags_queue (s : State) (i : RegIdx) : (s.setFlags i).queue = s.queue := rfl
@[simp] theorem State.setFlags_kbAvail (s : State) (i : RegIdx) : (s.setFlags i).kbAvail = s.kbAvail := rfl
@[simp] theorem State.setFlags_mem (s : State) (i : RegIdx) : (s.setFlags i).mem = s.mem := rfl
@[simp] theorem State.setFlags_ir (s : State) (i : RegIdx) : (s.setFlags i).ir = s.ir := rfl
@[simp] theorem State.setFlags_output (s : State) (i : RegIdx) : (s.setFlags i).output = s.output := rfl
@[simp] theorem State.setFlags_activity (s : State) (i : RegIdx) : (s.setFlags i).activity = s.activity := rfl
@[simp] theorem State.setFlags_relay (s : State) (i : RegIdx) : (s.setFlags i).relay = s.relay := rfl

/-! ### setResult -/

@[simp] theorem State.setResult_regs (s : State) (i : RegIdx) (v : Word) : (s.setResult i v).regs = s.regs.set i.toNat v := rfl
@[simp] theorem State.setResult_pc (s : State) (i : RegIdx) (v : Word) : (s.setResult i v).pc = s.pc := rfl
@[simp] theorem State.setResult_cc (s : State) (i : RegIdx) (v : Word) : (s.setResult i v).cc = ccOf ((s.setReg i v).getReg i) := rfl
@[simp] theorem State.setResult_running (s : State) (i : RegIdx) (v : Word) : (s.setResult i v).running = s.running := rfl
@[simp] theorem State.setResult_queue (s : State) (i : RegIdx) (v : Word) : (s.setResult i v).queue = s.queue := rfl
@[simp] theorem State.setResult_kbAvail (s : State) (i : RegIdx) (v : Word) : (s.setResult i v).kbAvail = s.kbAvail := rfl
@[simp] theorem State.setResult_mem (s : State) (i : RegIdx) (v : Word) : (s.setResult i v).mem = s.mem := rfl
@[simp] theorem State.setResult_ir (s : State) (i : RegIdx) (v : Word) : (s.setResult i v).ir = s.ir := rfl
@[simp] theorem State.setResult_output (s : State) (i : RegIdx) (v : Word) : (s.setResult i v).output = s.output := rfl
@[simp] theorem State.setResult_activity (s : State) (i : RegIdx) (v : Word) : (s.setResult i v).activity = s.activity := rfl
@[simp] theorem State.setResult_relay (s : State) (i : RegIdx) (v : Word) : (s.setResult i v).relay = s.relay := rfl

/-! ### Registers -/

theorem State.getReg_eq (s : State) (i : RegIdx) : s.getReg i = s.regs[i.toNat] := rfl

/-- A read of a register after a write of one. -/
theorem State.getReg_setReg (s : State) (i j : RegIdx) (v : Word) :
    (s.setReg i v).getReg j = if i = j then v else s.getReg j := by
  simp only [State.getReg_eq, State.setReg_regs, Vector.getElem_set, BitVec.toNat_inj]

@[simp] theorem State.getReg_setReg_self (s : State) (i : RegIdx) (v : Word) : (s.setReg i v).getReg i = v := by
  simp [State.getReg_setReg]

/-- States with the same register file read the same registers. -/
theorem State.getReg_congr {s t : State} (h : s.regs = t.regs) (i : RegIdx) : s.getReg i = t.getReg i := by
  simp [State.getReg_eq, h]

@[simp] theorem State.emit_getReg (s : State) (c : Word) (i : RegIdx) : (s.emit c).getReg i = s.getReg i := rfl
@[simp] theorem State.finish_getReg (s : State) (i : RegIdx) : s.finish.getReg i = s.getReg i := rfl

@[simp] theorem State.getReg_setResult (s : State) (i j : RegIdx) (v : Word) :
    (s.setResult i v).getReg j = if i = j then v else s.getReg j := State.getReg_setReg s i j v

/-- The condition code after a result is written is that of the result (41_operate.md R140). -/
theorem State.setResult_cc_of (s : State) (i : RegIdx) (v : Word) : (s.setResult i v).cc = ccOf v := by simp

/-- Two register files that read the same are the same. -/
theorem State.regs_ext {s t : State} (h : ∀ i : RegIdx, s.getReg i = t.getReg i) : s.regs = t.regs := by
  apply Vector.ext
  intro k hk
  have := h (BitVec.ofNat 3 k)
  simpa [State.getReg_eq, Nat.mod_eq_of_lt hk] using this

/-! ### Cells -/

/-- States with the same memory read the same cells. -/
theorem State.cell_congr {s t : State} (h : s.mem = t.mem) (a : Word) : s.cell a = t.cell a := by
  simp [State.cell, h]

/-- Read after write on a state's cells. -/
theorem State.cell_setCell {s : State} (hs : s.mem.wf = true) (a b v : Word) :
    (s.setCell a v).cell b = if a = b then v else s.cell b := by
  simp only [State.cell, State.setCell_mem, Memory.read_write hs, BitVec.toNat_inj]

/-- A store keeps the canonical form. -/
theorem State.wf_setCell {s : State} (hs : s.mem.wf = true) (a v : Word) : (s.setCell a v).mem.wf = true :=
  Memory.wf_write hs a.isLt v

/-- Reset memory lists nothing. -/
theorem State.wf_resetWith (cfg : Config) : (State.resetWith cfg).mem.wf = true := rfl

end Sys2Proof.Machine
end

