-- ==== Sys2Proof/Laws/Ops.lean ====
section
/-! SUPPORT. What each shared operation can do, said once: the relay's actions, the block's reads, the drain, the
fetch and the wait for a key. -/

namespace Sys2Proof.Machine

/-! ### The relay -/

/-- The relay's actions change `running`, Q and the relay itself, nothing else. -/
theorem relayRun_eq (l : List RelayEvent) (s : State) :
    relayRun l s = { s with
      running := (relayRun l s).running, queue := (relayRun l s).queue, relay := (relayRun l s).relay } := by
  induction l generalizing s with
  | nil => rfl
  | cons e l ih =>
    cases e with
    | push c => rw [relayRun, ih]; rfl
    | halt => rfl
    | pass => rfl

theorem relayPoint_eq (s : State) :
    s.relayPoint = { s with
      running := s.relayPoint.running, queue := s.relayPoint.queue, relay := s.relayPoint.relay } :=
  relayRun_eq s.relay s

@[simp] theorem relayPoint_regs (s : State) : s.relayPoint.regs = s.regs := by rw [relayPoint_eq]
@[simp] theorem relayPoint_pc (s : State) : s.relayPoint.pc = s.pc := by rw [relayPoint_eq]
@[simp] theorem relayPoint_cc (s : State) : s.relayPoint.cc = s.cc := by rw [relayPoint_eq]
@[simp] theorem relayPoint_kbAvail (s : State) : s.relayPoint.kbAvail = s.kbAvail := by rw [relayPoint_eq]
@[simp] theorem relayPoint_mem (s : State) : s.relayPoint.mem = s.mem := by rw [relayPoint_eq]
@[simp] theorem relayPoint_ir (s : State) : s.relayPoint.ir = s.ir := by rw [relayPoint_eq]
@[simp] theorem relayPoint_output (s : State) : s.relayPoint.output = s.output := by rw [relayPoint_eq]
@[simp] theorem relayPoint_activity (s : State) : s.relayPoint.activity = s.activity := by rw [relayPoint_eq]

/-- With no action to come, a point of the relay changes nothing. -/
theorem relayPoint_of_nil {s : State} (h : s.relay = []) : s.relayPoint = s := by
  unfold State.relayPoint; rw [h]; simp [relayRun, ← h]

/-! What a point of the relay does, by the first action to come. -/

theorem relayPoint_of_push {s : State} {c : Word} {rest : List RelayEvent} (h : s.relay = .push c :: rest) :
    s.relayPoint = { s.pushKey c with relay := rest }.relayPoint := by
  unfold State.relayPoint; rw [h]; rfl

theorem relayPoint_of_halt {s : State} {rest : List RelayEvent} (h : s.relay = .halt :: rest) :
    s.relayPoint = s.haltRequest := by
  unfold State.relayPoint; rw [h]; rfl

theorem relayPoint_of_pass {s : State} {rest : List RelayEvent} (h : s.relay = .pass :: rest) :
    s.relayPoint = { s with relay := rest } := by
  unfold State.relayPoint; rw [h]; rfl

/-- No action is put into the relay's list: what is left is a tail of it. -/
theorem relayRun_relay (l : List RelayEvent) (s : State) : (relayRun l s).relay <:+ l := by
  induction l generalizing s with
  | nil => exact List.suffix_rfl
  | cons e l ih =>
    cases e with
    | push c => exact (ih _).trans (List.suffix_cons _ _)
    | halt => exact List.nil_suffix
    | pass => exact List.suffix_cons _ _

theorem relayPoint_relay (s : State) : s.relayPoint.relay <:+ s.relay := relayRun_relay s.relay s

/-- Only a halt request among its actions makes the relay clear `running`. -/
theorem relayRun_clears {l : List RelayEvent} {s : State} (hs : s.running = true)
    (h : (relayRun l s).running = false) : .halt ∈ l := by
  induction l generalizing s with
  | nil => simp [relayRun, hs] at h
  | cons e l ih =>
    cases e with
    | push c => exact List.mem_cons_of_mem _ (ih (s := s.relayAct l (.push c)) hs h)
    | halt => exact List.mem_cons_self
    | pass => simp [relayRun, State.relayAct, hs] at h

/-- The relay never sets `running`. -/
theorem relayRun_running (l : List RelayEvent) {s : State} (h : s.running = false) :
    (relayRun l s).running = false := by
  induction l generalizing s with
  | nil => exact h
  | cons e l ih =>
    cases e with
    | push c => exact ih h
    | halt => rfl
    | pass => exact h

/-- No key is lost or reordered by the relay's actions: Q and what is still to come stay the same sequence. -/
theorem relayRun_pending (l : List RelayEvent) (s : State) :
    (relayRun l s).pendingKeys = s.queue ++ comingKeys l := by
  induction l generalizing s with
  | nil => rfl
  | cons e l ih =>
    cases e with
    | push c => rw [relayRun, ih]; simp [State.relayAct, comingKeys]
    | halt => simp [relayRun, State.relayAct, State.pendingKeys, comingKeys]
    | pass => rfl

theorem relayPoint_pending (s : State) : s.relayPoint.pendingKeys = s.pendingKeys := relayRun_pending s.relay s

/-! ### The ready bit -/

theorem withReady_true (w : Word) : withReady w true = w ||| 0x8000 := by
  unfold withReady; simp only [if_true]; ext i hi; simp; interval_cases i <;> simp

theorem withReady_false (w : Word) : withReady w false = w &&& 0x7FFF := by simp [withReady]

/-! ### Reads -/

theorem deliverPending_cases (s : State) :
    (∃ c rest, s.kbAvail = false ∧ s.queue = c :: rest ∧
      s.deliverPending = { s with queue := rest }.deliver c) ∨
    ((s.kbAvail = true ∨ s.queue = []) ∧ s.deliverPending = s) := by
  unfold State.deliverPending
  split
  · exact .inl ⟨_, _, by assumption, by assumption, rfl⟩
  · refine .inr ⟨?_, rfl⟩
    rename_i h
    cases hk : s.kbAvail
    · cases hq : s.queue with
      | nil => exact .inr rfl
      | cons c r => exact absurd hq (h c r hk)
    · exact .inl rfl

/-- A status read changes Q, `kb_avail` and memory, nothing else. -/
theorem statusRead_eq (s : State) :
    s.statusRead.2 = { s with
      queue := s.statusRead.2.queue, kbAvail := s.statusRead.2.kbAvail, mem := s.statusRead.2.mem } := by
  rcases deliverPending_cases s with ⟨c, rest, _, _, h⟩ | ⟨_, h⟩ <;>
    simp [State.statusRead, h, State.setReady, State.setCell, State.deliver]

/-- A read changes Q, `kb_avail` and memory, nothing else. -/
theorem memRead_eq (s : State) (a : Word) :
    (s.memRead a).2 = { s with
      queue := (s.memRead a).2.queue, kbAvail := (s.memRead a).2.kbAvail, mem := (s.memRead a).2.mem } := by
  unfold State.memRead
  split
  · exact statusRead_eq s
  · split <;> rfl

/-- A read at an ordinary address has no side effect (20_memory.md R59). -/
theorem memRead_ordinary {s : State} {a : Word} (h1 : a ≠ kbsr) (h2 : a ≠ kbdr) :
    s.memRead a = (s.cell a, s) := by
  simp [State.memRead, h1, h2]

/-- What a read of the block leaves alone. -/
theorem blockRead_eq (s : State) (a : Word) :
    (s.blockRead a).2 = { s with
      running := (s.blockRead a).2.running, queue := (s.blockRead a).2.queue,
      kbAvail := (s.blockRead a).2.kbAvail, mem := (s.blockRead a).2.mem, relay := (s.blockRead a).2.relay } := by
  unfold State.blockRead
  split
  · rw [memRead_eq, relayPoint_eq]
  · rw [memRead_eq]

@[simp] theorem blockRead_regs (s : State) (a : Word) : (s.blockRead a).2.regs = s.regs := by rw [blockRead_eq]
@[simp] theorem blockRead_pc (s : State) (a : Word) : (s.blockRead a).2.pc = s.pc := by rw [blockRead_eq]
@[simp] theorem blockRead_cc (s : State) (a : Word) : (s.blockRead a).2.cc = s.cc := by rw [blockRead_eq]
@[simp] theorem blockRead_ir (s : State) (a : Word) : (s.blockRead a).2.ir = s.ir := by rw [blockRead_eq]
@[simp] theorem blockRead_output (s : State) (a : Word) : (s.blockRead a).2.output = s.output := by
  rw [blockRead_eq]
@[simp] theorem blockRead_activity (s : State) (a : Word) : (s.blockRead a).2.activity = s.activity := by
  rw [blockRead_eq]

@[simp] theorem blockRead_getReg (s : State) (a : Word) (i : RegIdx) :
    (s.blockRead a).2.getReg i = s.getReg i := State.getReg_congr (blockRead_regs s a) i

theorem blockRead_ordinary {s : State} {a : Word} (h1 : a ≠ kbsr) (h2 : a ≠ kbdr) :
    s.blockRead a = (s.cell a, s) := by
  simp [State.blockRead, h1, memRead_ordinary h1 h2]

/-- A read of a device register or not, every cell but the two device cells stays as it is. -/
theorem blockRead_cell {s : State} (hs : s.mem.wf = true) (a : Word) {b : Word} (h1 : b ≠ kbsr) (h2 : b ≠ kbdr) :
    (s.blockRead a).2.cell b = s.cell b := by
  have key : ∀ u : State, u.mem = s.mem → (u.memRead a).2.cell b = s.cell b := by
    intro u hu
    have hw : u.mem.wf = true := hu ▸ hs
    have hc : u.cell b = s.cell b := State.cell_congr hu b
    unfold State.memRead
    split
    · rcases deliverPending_cases u with ⟨c, rest, _, _, h⟩ | ⟨_, h⟩
      · simp only [State.statusRead, h, State.setReady]
        rw [State.cell_setCell (by exact State.wf_setCell (s := { u with queue := rest }) hw _ _), if_neg (Ne.symm h1)]
        exact (State.cell_setCell (s := { u with queue := rest }) hw kbdr b c).trans (by rw [if_neg (Ne.symm h2)]; exact hc)
      · simp only [State.statusRead, h, State.setReady]
        rw [State.cell_setCell hw, if_neg (Ne.symm h1), hc]
    · split
      · exact hc
      · exact hc
  unfold State.blockRead
  split
  · exact key _ (by simp)
  · exact key _ rfl

theorem statusRead_wf {s : State} (hs : s.mem.wf = true) : s.statusRead.2.mem.wf = true := by
  rcases deliverPending_cases s with ⟨c, rest, _, _, h⟩ | ⟨_, h⟩ <;> simp only [State.statusRead, h]
  · exact State.wf_setCell (s := { s with queue := rest }.deliver c)
      (State.wf_setCell (s := { s with queue := rest }) hs _ _) _ _
  · exact State.wf_setCell hs _ _

/-- A read keeps the canonical form. -/
theorem blockRead_wf {s : State} (hs : s.mem.wf = true) (a : Word) : (s.blockRead a).2.mem.wf = true := by
  have key : ∀ u : State, u.mem.wf = true → (u.memRead a).2.mem.wf = true := by
    intro u hu
    unfold State.memRead
    split
    · exact statusRead_wf hu
    · split <;> exact hu
  unfold State.blockRead
  split
  · exact key _ (by simpa using hs)
  · exact key _ hs

/-- A read of the block never sets `running`. -/
theorem blockRead_running {s : State} (h : s.running = false) (a : Word) : (s.blockRead a).2.running = false := by
  unfold State.blockRead
  split <;> rw [memRead_eq]
  · exact relayRun_running _ h
  · exact h

theorem memRead_pending (s : State) (a : Word) : (s.memRead a).2.pendingKeys <:+ s.pendingKeys := by
  unfold State.memRead
  split
  · rcases deliverPending_cases s with ⟨c, rest, _, hq, h⟩ | ⟨_, h⟩
    · exact ⟨[c], by simp [State.statusRead, h, State.pendingKeys, hq]⟩
    · exact ⟨[], by simp [State.statusRead, h, State.pendingKeys]⟩
  · split <;> exact List.suffix_refl _

/-- A read takes keys from the front only. -/
theorem blockRead_pending (s : State) (a : Word) : (s.blockRead a).2.pendingKeys <:+ s.pendingKeys := by
  unfold State.blockRead
  split
  · exact relayPoint_pending s ▸ memRead_pending s.relayPoint a
  · exact memRead_pending s a

/-! ### Drain and fetch -/

theorem drain_cases (s : State) :
    (∃ c rest, s.queue = c :: rest ∧ s.ready = false ∧
      s.drain = ({ s with queue := rest }.deliver c).setReady true) ∨
    ((s.queue = [] ∨ s.ready = true) ∧ s.drain = s) := by
  unfold State.drain
  split
  · exact .inr ⟨.inl (by assumption), rfl⟩
  · split
    · exact .inr ⟨.inr (by assumption), rfl⟩
    · rename_i c rest hq hr
      exact .inl ⟨c, rest, hq, by simpa using hr, rfl⟩

/-- What the drain leaves alone. -/
theorem drain_eq (s : State) :
    s.drain = { s with queue := s.drain.queue, kbAvail := s.drain.kbAvail, mem := s.drain.mem } := by
  rcases drain_cases s with ⟨c, rest, _, _, h⟩ | ⟨_, h⟩ <;>
    simp [h, State.setReady, State.setCell, State.deliver]

@[simp] theorem drain_regs (s : State) : s.drain.regs = s.regs := by rw [drain_eq]
@[simp] theorem drain_pc (s : State) : s.drain.pc = s.pc := by rw [drain_eq]
@[simp] theorem drain_cc (s : State) : s.drain.cc = s.cc := by rw [drain_eq]
@[simp] theorem drain_running (s : State) : s.drain.running = s.running := by rw [drain_eq]
@[simp] theorem drain_output (s : State) : s.drain.output = s.output := by rw [drain_eq]
@[simp] theorem drain_activity (s : State) : s.drain.activity = s.activity := by rw [drain_eq]
@[simp] theorem drain_relay (s : State) : s.drain.relay = s.relay := by rw [drain_eq]

theorem drain_wf {s : State} (hs : s.mem.wf = true) : s.drain.mem.wf = true := by
  rcases drain_cases s with ⟨c, rest, _, _, h⟩ | ⟨_, h⟩ <;> rw [h]
  · exact State.wf_setCell (s := { s with queue := rest }.deliver c)
      (State.wf_setCell (s := { s with queue := rest }) hs _ _) _ _
  · exact hs

theorem drain_pending (s : State) : s.drain.pendingKeys <:+ s.pendingKeys := by
  rcases drain_cases s with ⟨c, rest, hq, _, h⟩ | ⟨_, h⟩ <;> rw [h]
  exact ⟨[c], by simp [State.pendingKeys, hq]⟩

@[simp] theorem fetch_pc (s : State) : s.fetch.pc = s.pc + 1 := rfl
@[simp] theorem fetch_ir (s : State) : s.fetch.ir = (s.blockRead s.pc).1 := rfl
@[simp] theorem fetch_regs (s : State) : s.fetch.regs = s.regs := by simp [State.fetch]
@[simp] theorem fetch_cc (s : State) : s.fetch.cc = s.cc := by simp [State.fetch]
@[simp] theorem fetch_output (s : State) : s.fetch.output = s.output := by simp [State.fetch]
@[simp] theorem fetch_activity (s : State) : s.fetch.activity = s.activity := by simp [State.fetch]
theorem fetch_wf {s : State} (hs : s.mem.wf = true) : s.fetch.mem.wf = true := blockRead_wf hs s.pc

/-! ### The wait for a key -/

/-- How the wait can end: from a state that differs from the first only in what the relay may change, a key is
popped while `running` is true, or `running` is false, or Q is empty and the relay has nothing more to do. -/
theorem awaitKey_cases (l : List RelayEvent) (s : State) (hl : s.relay = l) :
    ∃ u, u = { s with running := u.running, queue := u.queue, relay := u.relay } ∧
      u.pendingKeys = s.pendingKeys ∧ (s.running = false → u.running = false) ∧
      ((∃ c rest, u.running = true ∧ u.queue = c :: rest ∧
          awaitKey l s = .key c { u with queue := rest }) ∨
       (u.running = false ∧ awaitKey l s = .halted u) ∨
       (u.running = true ∧ u.queue = [] ∧ u.relay = [] ∧ awaitKey l s = .holding u)) := by
  induction l generalizing s with
  | nil =>
    refine ⟨s, rfl, rfl, id, ?_⟩
    unfold awaitKey State.keyNow
    by_cases hr : s.running = false
    · simp [hr]
    · rw [if_neg hr]
      cases hq : s.queue with
      | nil => exact .inr (.inr ⟨by simpa using hr, rfl, hl, rfl⟩)
      | cons c rest => exact .inl ⟨c, rest, by simpa using hr, rfl, rfl⟩
  | cons e rest ih =>
    unfold awaitKey State.keyNow
    by_cases hr : s.running = false
    · exact ⟨s, rfl, rfl, id, .inr (.inl (by simp [hr]))⟩
    · rw [if_neg hr]
      cases hq : s.queue with
      | cons c q => exact ⟨s, rfl, rfl, id, .inl ⟨c, q, by simpa using hr, hq, rfl⟩⟩
      | nil =>
        dsimp only
        cases e with
        | push c =>
          obtain ⟨u, hu, hp, _, hc⟩ := ih (s.relayAct rest (.push c)) rfl
          refine ⟨u, hu.trans rfl, hp.trans ?_, fun h => absurd h hr, hc⟩
          simp [State.pendingKeys, State.relayAct, hl, comingKeys]
        | halt =>
          refine ⟨s.haltRequest, rfl, ?_, fun _ => rfl, .inr (.inl ⟨rfl, ?_⟩)⟩
          · simp [State.pendingKeys, hl, comingKeys]
          · cases rest <;> simp [State.relayAct, awaitKey, State.keyNow]
        | pass =>
          obtain ⟨u, hu, hp, _, hc⟩ := ih (s.relayAct rest .pass) rfl
          refine ⟨u, hu.trans rfl, hp.trans ?_, fun h => absurd h hr, hc⟩
          simp [State.pendingKeys, State.relayAct, hl, comingKeys]

/-- How a held wait goes on: a key in Q is popped, else the wait looks again. -/
theorem resumeKey_cases (s : State) :
    (∃ c rest, s.queue = c :: rest ∧ resumeKey s = .key c { s with queue := rest }) ∨
    (s.queue = [] ∧ resumeKey s = awaitKey s.relay s) := by
  unfold resumeKey
  cases s.queue with
  | nil => exact .inr ⟨rfl, rfl⟩
  | cons c rest => exact .inl ⟨c, rest, rfl, rfl⟩

end Sys2Proof.Machine
end

