-- ==== Sys2Proof/Laws/PerInstr.lean ====
section
/-! SUPPORT. Per instruction: the encoded word has the fixed bits of its row of spec/opcode_table.json. -/

namespace Sys2Proof.Laws

/-- The encoded word meets the mask and match of the instruction's row (30_encoding.md R93, R98). -/
def FixedBits.Statement (i : Instr) : Prop := encode i &&& i.row.mask = i.row.pattern

theorem FixedBits.br (mask : BitVec 3) (off : BitVec 9) : FixedBits.Statement (.br mask off) := by
  refine word_ext fun i => ?_
  rw [BitVec.getLsbD_and]; dsimp only [encode, Instr.row]
  repeat rw [BitVec.getLsbD_append]
  fin_cases i <;> simp

theorem FixedBits.addReg (dr sr1 sr2 : RegIdx) : FixedBits.Statement (.addReg dr sr1 sr2) := by
  refine word_ext fun i => ?_
  rw [BitVec.getLsbD_and]; dsimp only [encode, Instr.row]
  repeat rw [BitVec.getLsbD_append]
  fin_cases i <;> simp

theorem FixedBits.addImm (dr sr1 : RegIdx) (imm : BitVec 5) : FixedBits.Statement (.addImm dr sr1 imm) := by
  refine word_ext fun i => ?_
  rw [BitVec.getLsbD_and]; dsimp only [encode, Instr.row]
  repeat rw [BitVec.getLsbD_append]
  fin_cases i <;> simp

theorem FixedBits.ld (dr : RegIdx) (off : BitVec 9) : FixedBits.Statement (.ld dr off) := by
  refine word_ext fun i => ?_
  rw [BitVec.getLsbD_and]; dsimp only [encode, Instr.row]
  repeat rw [BitVec.getLsbD_append]
  fin_cases i <;> simp

theorem FixedBits.st (sr : RegIdx) (off : BitVec 9) : FixedBits.Statement (.st sr off) := by
  refine word_ext fun i => ?_
  rw [BitVec.getLsbD_and]; dsimp only [encode, Instr.row]
  repeat rw [BitVec.getLsbD_append]
  fin_cases i <;> simp

theorem FixedBits.jsrr (base : RegIdx) : FixedBits.Statement (.jsrr base) := by
  refine word_ext fun i => ?_
  rw [BitVec.getLsbD_and]; dsimp only [encode, Instr.row]
  repeat rw [BitVec.getLsbD_append]
  fin_cases i <;> simp

theorem FixedBits.jsr (off : BitVec 11) : FixedBits.Statement (.jsr off) := by
  refine word_ext fun i => ?_
  rw [BitVec.getLsbD_and]; dsimp only [encode, Instr.row]
  repeat rw [BitVec.getLsbD_append]
  fin_cases i <;> simp

theorem FixedBits.andReg (dr sr1 sr2 : RegIdx) : FixedBits.Statement (.andReg dr sr1 sr2) := by
  refine word_ext fun i => ?_
  rw [BitVec.getLsbD_and]; dsimp only [encode, Instr.row]
  repeat rw [BitVec.getLsbD_append]
  fin_cases i <;> simp

theorem FixedBits.andImm (dr sr1 : RegIdx) (imm : BitVec 5) : FixedBits.Statement (.andImm dr sr1 imm) := by
  refine word_ext fun i => ?_
  rw [BitVec.getLsbD_and]; dsimp only [encode, Instr.row]
  repeat rw [BitVec.getLsbD_append]
  fin_cases i <;> simp

theorem FixedBits.ldr (dr base : RegIdx) (off : BitVec 6) : FixedBits.Statement (.ldr dr base off) := by
  refine word_ext fun i => ?_
  rw [BitVec.getLsbD_and]; dsimp only [encode, Instr.row]
  repeat rw [BitVec.getLsbD_append]
  fin_cases i <;> simp

theorem FixedBits.str (sr base : RegIdx) (off : BitVec 6) : FixedBits.Statement (.str sr base off) := by
  refine word_ext fun i => ?_
  rw [BitVec.getLsbD_and]; dsimp only [encode, Instr.row]
  repeat rw [BitVec.getLsbD_append]
  fin_cases i <;> simp

theorem FixedBits.res8 : FixedBits.Statement (.res8) := by
  unfold FixedBits.Statement; decide

theorem FixedBits.not (dr sr : RegIdx) : FixedBits.Statement (.not dr sr) := by
  refine word_ext fun i => ?_
  rw [BitVec.getLsbD_and]; dsimp only [encode, Instr.row]
  repeat rw [BitVec.getLsbD_append]
  fin_cases i <;> simp

theorem FixedBits.ldi (dr : RegIdx) (off : BitVec 9) : FixedBits.Statement (.ldi dr off) := by
  refine word_ext fun i => ?_
  rw [BitVec.getLsbD_and]; dsimp only [encode, Instr.row]
  repeat rw [BitVec.getLsbD_append]
  fin_cases i <;> simp

theorem FixedBits.sti (sr : RegIdx) (off : BitVec 9) : FixedBits.Statement (.sti sr off) := by
  refine word_ext fun i => ?_
  rw [BitVec.getLsbD_and]; dsimp only [encode, Instr.row]
  repeat rw [BitVec.getLsbD_append]
  fin_cases i <;> simp

theorem FixedBits.jmp (base : RegIdx) : FixedBits.Statement (.jmp base) := by
  refine word_ext fun i => ?_
  rw [BitVec.getLsbD_and]; dsimp only [encode, Instr.row]
  repeat rw [BitVec.getLsbD_append]
  fin_cases i <;> simp

theorem FixedBits.res13 : FixedBits.Statement (.res13) := by
  unfold FixedBits.Statement; decide

theorem FixedBits.lea (dr : RegIdx) (off : BitVec 9) : FixedBits.Statement (.lea dr off) := by
  refine word_ext fun i => ?_
  rw [BitVec.getLsbD_and]; dsimp only [encode, Instr.row]
  repeat rw [BitVec.getLsbD_append]
  fin_cases i <;> simp

theorem FixedBits.trap (vect : Byte) : FixedBits.Statement (.trap vect) := by
  refine word_ext fun i => ?_
  rw [BitVec.getLsbD_and]; dsimp only [encode, Instr.row]
  repeat rw [BitVec.getLsbD_append]
  fin_cases i <;> simp

theorem FixedBits.trapGetc : FixedBits.Statement (.trapGetc) := by
  unfold FixedBits.Statement; decide

theorem FixedBits.trapOut : FixedBits.Statement (.trapOut) := by
  unfold FixedBits.Statement; decide

theorem FixedBits.trapPuts : FixedBits.Statement (.trapPuts) := by
  unfold FixedBits.Statement; decide

theorem FixedBits.trapIn : FixedBits.Statement (.trapIn) := by
  unfold FixedBits.Statement; decide

theorem FixedBits.trapPutsp : FixedBits.Statement (.trapPutsp) := by
  unfold FixedBits.Statement; decide

theorem FixedBits.trapHalt : FixedBits.Statement (.trapHalt) := by
  unfold FixedBits.Statement; decide

theorem FixedBits.ret : FixedBits.Statement (.ret) := by
  unfold FixedBits.Statement; decide

end Sys2Proof.Laws
end

