-- ==== Sys2Proof/Laws/Services.lean ====
section
/-! SUPPORT. What the trap services can do, said once each (44_trap.md). -/

namespace Sys2Proof.Machine

/-! ### GETC and IN -/

/-- How GETC ends: a key popped into R0, a return with no pop, or a held wait. -/
theorem getcEnd_cases {l : List RelayEvent} {s : State} (hl : s.relay = l) :
    ∃ u : State, u = { s with running := u.running, queue := u.queue, relay := u.relay } ∧
      u.pendingKeys = s.pendingKeys ∧ (s.running = false → u.running = false) ∧
      ((∃ c rest, u.running = true ∧ u.queue = c :: rest ∧
          getcEnd (awaitKey l s) = ({ u with queue := rest }.setReg 0#3 c).finish) ∨
       (u.running = false ∧ getcEnd (awaitKey l s) = u.finish) ∨
       (u.running = true ∧ u.queue = [] ∧ u.relay = [] ∧
          getcEnd (awaitKey l s) = { u with activity := .waitGetc })) := by
  obtain ⟨u, hu, hp, hr, hc⟩ := awaitKey_cases l s hl
  refine ⟨u, hu, hp, hr, ?_⟩
  rcases hc with ⟨c, rest, h1, h2, h⟩ | ⟨h1, h⟩ | ⟨h1, h2, h3, h⟩
  · exact .inl ⟨c, rest, h1, h2, by rw [h]; rfl⟩
  · exact .inr (.inl ⟨h1, by rw [h]; rfl⟩)
  · exact .inr (.inr ⟨h1, h2, h3, by rw [h]; rfl⟩)

/-- How IN ends: as GETC, with the popped key output. -/
theorem inEnd_cases {l : List RelayEvent} {s : State} (hl : s.relay = l) :
    ∃ u : State, u = { s with running := u.running, queue := u.queue, relay := u.relay } ∧
      u.pendingKeys = s.pendingKeys ∧ (s.running = false → u.running = false) ∧
      ((∃ c rest, u.running = true ∧ u.queue = c :: rest ∧
          inEnd (awaitKey l s) = (({ u with queue := rest }.setReg 0#3 c).emit c).finish) ∨
       (u.running = false ∧ inEnd (awaitKey l s) = u.finish) ∨
       (u.running = true ∧ u.queue = [] ∧ u.relay = [] ∧
          inEnd (awaitKey l s) = { u with activity := .waitIn })) := by
  obtain ⟨u, hu, hp, hr, hc⟩ := awaitKey_cases l s hl
  refine ⟨u, hu, hp, hr, ?_⟩
  rcases hc with ⟨c, rest, h1, h2, h⟩ | ⟨h1, h⟩ | ⟨h1, h2, h3, h⟩
  · exact .inl ⟨c, rest, h1, h2, by rw [h]; rfl⟩
  · exact .inr (.inl ⟨h1, by rw [h]; rfl⟩)
  · exact .inr (.inr ⟨h1, h2, h3, by rw [h]; rfl⟩)

/-- How a held GETC goes on: it pops the oldest key, or with Q empty it waits as before. -/
theorem getcResume_cases (s : State) :
    (∃ c rest, s.queue = c :: rest ∧ getcResume s = ({ s with queue := rest }.setReg 0#3 c).finish) ∨
    (s.queue = [] ∧ getcResume s = getcEnd (awaitKey s.relay s)) := by
  unfold getcResume
  rcases resumeKey_cases s with ⟨c, rest, hq, h⟩ | ⟨hq, h⟩
  · exact .inl ⟨c, rest, hq, by rw [h]; rfl⟩
  · exact .inr ⟨hq, by rw [h]⟩

/-- How a held IN goes on: as GETC, with the popped key output. -/
theorem inResume_cases (s : State) :
    (∃ c rest, s.queue = c :: rest ∧ inResume s = (({ s with queue := rest }.setReg 0#3 c).emit c).finish) ∨
    (s.queue = [] ∧ inResume s = inEnd (awaitKey s.relay s)) := by
  unfold inResume
  rcases resumeKey_cases s with ⟨c, rest, hq, h⟩ | ⟨hq, h⟩
  · exact .inl ⟨c, rest, hq, by rw [h]; rfl⟩
  · exact .inr ⟨hq, by rw [h]⟩

/-- With the block's parameters IN is no stub. -/
theorem inService_block (s : State) :
    inService Config.block s = inEnd (awaitKey s.relayPoint.relay s.relayPoint) := by
  unfold inService; exact if_neg (by decide)

/-! ### PUTS and PUTSP -/

/-- With the block's parameters PUTSP is no stub. Rewrite with this before anything compares two string loops. -/
theorem putspService_block (s : State) :
    putspService Config.block s = putspLoop Config.wordsPerStep (s.getReg 0#3) s := by
  unfold putspService; exact if_neg (by decide)

/-- What a property of states must survive so that it survives a string service: reads, outputs, and a change of
`activity`. -/
structure StringStable (P : State → Prop) : Prop where
  read : ∀ s a, P s → P (s.blockRead a).2
  emit : ∀ s c, P s → P (s.emit c)
  turn : ∀ s act, P s → P { s with activity := act }

theorem putsLoop_stable {P : State → Prop} (hP : StringStable P) (n : Nat) {a : Word} {s : State} (h : P s) :
    P (putsLoop n a s) := by
  induction n generalizing a s with
  | zero => exact hP.turn _ _ h
  | succ n ih =>
    unfold putsLoop
    split
    · exact hP.turn _ _ (hP.read _ _ h)
    · exact ih (hP.emit _ _ (hP.read _ _ h))

theorem putspLoop_stable {P : State → Prop} (hP : StringStable P) (n : Nat) {a : Word} {s : State} (h : P s) :
    P (putspLoop n a s) := by
  induction n generalizing a s with
  | zero => exact hP.turn _ _ h
  | succ n ih =>
    unfold putspLoop
    split
    · exact hP.turn _ _ (hP.read _ _ h)
    · split
      · exact hP.turn _ _ (hP.emit _ _ (hP.read _ _ h))
      · exact ih (hP.emit _ _ (hP.emit _ _ (hP.read _ _ h)))

/-- After a string service's loop the block is between two cycles or inside the string. -/
theorem putsLoop_activity (n : Nat) (a : Word) (s : State) :
    (putsLoop n a s).activity = .betweenCycles ∨ ∃ b, (putsLoop n a s).activity = .puts b := by
  induction n generalizing a s with
  | zero => exact .inr ⟨a, rfl⟩
  | succ n ih =>
    unfold putsLoop
    split
    · exact .inl rfl
    · exact ih _ _

theorem putspLoop_activity (n : Nat) (a : Word) (s : State) :
    (putspLoop n a s).activity = .betweenCycles ∨ ∃ b, (putspLoop n a s).activity = .putsp b := by
  induction n generalizing a s with
  | zero => exact .inr ⟨a, rfl⟩
  | succ n ih =>
    unfold putspLoop
    split
    · exact .inl rfl
    · split
      · exact .inl rfl
      · exact ih _ _

/-! What is stable under a string service: the registers, pc, cc, ir, the cells but the two device cells, the
canonical form, `running` once false, the output so far, and the order of the keys. -/

theorem stable_regs (v : Vector Word 8) : StringStable fun s => s.regs = v :=
  ⟨fun s a h => by simpa using h, fun _ _ h => h, fun _ _ h => h⟩

theorem stable_pc (v : Word) : StringStable fun s => s.pc = v :=
  ⟨fun s a h => by simpa using h, fun _ _ h => h, fun _ _ h => h⟩

theorem stable_cc (v : CondCode) : StringStable fun s => s.cc = v :=
  ⟨fun s a h => by simpa using h, fun _ _ h => h, fun _ _ h => h⟩

theorem stable_ir (v : Word) : StringStable fun s => s.ir = v :=
  ⟨fun s a h => by simpa using h, fun _ _ h => h, fun _ _ h => h⟩

theorem stable_wf : StringStable fun s => s.mem.wf = true :=
  ⟨fun _ a h => blockRead_wf h a, fun _ _ h => h, fun _ _ h => h⟩

theorem stable_cell {b : Word} (h1 : b ≠ kbsr) (h2 : b ≠ kbdr) (v : Word) :
    StringStable fun s => s.mem.wf = true ∧ s.cell b = v :=
  ⟨fun _ a h => ⟨blockRead_wf h.1 a, (blockRead_cell h.1 a h1 h2).trans h.2⟩, fun _ _ h => h, fun _ _ h => h⟩

theorem stable_halted : StringStable fun s => s.running = false :=
  ⟨fun _ a h => blockRead_running h a, fun _ _ h => h, fun _ _ h => h⟩

theorem stable_output (l : List Word) : StringStable fun s => l <+: s.output :=
  ⟨fun s a h => by simpa using h, fun _ _ h => h.trans (List.prefix_append _ _), fun _ _ h => h⟩

theorem stable_keys (l : List Word) : StringStable fun s => s.pendingKeys <:+ l :=
  ⟨fun s a h => (blockRead_pending s a).trans h, fun _ _ h => h, fun _ _ h => h⟩

end Sys2Proof.Machine
end

