-- ==== Sys2Proof/Laws/Step.lean ====
section
/-! SUPPORT. One step, split into what it can be; and the properties of states that every instruction and every
step keep, from the operations they are built of. -/

namespace Sys2Proof.Machine

/-- What a step is, by where the block stands. -/
theorem step_eq (s : State) : step s = match s.activity with
    | .betweenCycles =>
      if s.relayPoint.running then exec (decode s.relayPoint.drainFetch.ir) s.relayPoint.drainFetch
      else .next { s.relayPoint with activity := .runOver }
    | .waitGetc => .next (getcResume s)
    | .waitIn => .next (inResume s)
    | .puts a => .next (putsResume a s)
    | .putsp a => .next (putspResume a s)
    | .runOver => .next s := by
  unfold step State.plan State.beginCycle
  cases s.activity <;> dsimp only
  by_cases h : s.relayPoint.running = true
  · simp only [if_pos h]
  · simp only [if_neg h]

@[simp] theorem drainFetch_regs (s : State) : s.drainFetch.regs = s.regs := by simp [State.drainFetch]
@[simp] theorem drainFetch_cc (s : State) : s.drainFetch.cc = s.cc := by simp [State.drainFetch]
@[simp] theorem drainFetch_output (s : State) : s.drainFetch.output = s.output := by simp [State.drainFetch]
@[simp] theorem drainFetch_activity (s : State) : s.drainFetch.activity = s.activity := by simp [State.drainFetch]
@[simp] theorem drainFetch_pc (s : State) : s.drainFetch.pc = s.pc + 1 := by simp [State.drainFetch]

theorem drainFetch_wf {s : State} (hs : s.mem.wf = true) : s.drainFetch.mem.wf = true :=
  fetch_wf (drain_wf (by simpa using hs))

/-! ### Properties kept by the operations -/

/-- A property of states kept by every operation that instructions are built of. -/
structure OpStable (P : State → Prop) : Prop where
  setReg : ∀ s i v, P s → P (s.setReg i v)
  setFlags : ∀ s i, P s → P (s.setFlags i)
  setPc : ∀ s v, P s → P (s.setPc v)
  read : ∀ s a, P s → P (s.blockRead a).2
  write : ∀ s a v, P s → P (s.memWrite a v)
  emit : ∀ s c, P s → P (s.emit c)
  turn : ∀ s act, P s → P { s with activity := act }
  stop : ∀ s, P s → P { s with running := false }
  relay : ∀ s e rest, s.relay = e :: rest → P s → P (s.relayAct rest e)
  pop : ∀ s c rest, s.queue = c :: rest → P s → P { s with queue := rest }

theorem OpStable.string {P : State → Prop} (hP : OpStable P) : StringStable P := ⟨hP.read, hP.emit, hP.turn⟩

theorem OpStable.setResult {P : State → Prop} (hP : OpStable P) {s : State} (h : P s) (i : RegIdx) (v : Word) :
    P (s.setResult i v) := hP.setFlags _ _ (hP.setReg _ _ _ h)

theorem OpStable.relayRun {P : State → Prop} (hP : OpStable P) (l : List RelayEvent) {s : State}
    (hl : s.relay = l) (h : P s) : P (relayRun l s) := by
  induction l generalizing s with
  | nil => rw [Machine.relayRun, ← hl]; exact h
  | cons e l ih =>
    cases e with
    | push c => exact ih rfl (hP.relay _ _ _ hl h)
    | halt => exact hP.relay _ _ _ hl h
    | pass => exact hP.relay _ _ _ hl h

theorem OpStable.relayPoint {P : State → Prop} (hP : OpStable P) {s : State} (h : P s) : P s.relayPoint :=
  hP.relayRun s.relay rfl h

/-- The states a look at the wait answers with. -/
def KeyWait.Holds (P : State → Prop) : KeyWait → Prop
  | .key _ t => P t
  | .halted t => P t
  | .holding t => P t

theorem OpStable.keyNow {P : State → Prop} (hP : OpStable P) {s : State} (h : P s) : s.keyNow.Holds P := by
  unfold State.keyNow
  split
  · exact h
  · split
    · exact hP.pop _ _ _ (by assumption) h
    · exact h

theorem OpStable.awaitKey {P : State → Prop} (hP : OpStable P) (l : List RelayEvent) {s : State}
    (hl : s.relay = l) (h : P s) : (awaitKey l s).Holds P := by
  induction l generalizing s with
  | nil => exact hP.keyNow h
  | cons e l ih =>
    have hk := hP.keyNow h
    unfold Machine.awaitKey
    split
    · rename_i t ht
      have hts : t = s := by
        unfold State.keyNow at ht
        split at ht
        · cases ht
        · split at ht <;> cases ht; rfl
      subst hts
      cases e with
      | halt =>
        cases l <;> exact hP.relay _ _ _ hl h
      | push c => exact ih rfl (hP.relay _ _ _ hl h)
      | pass => exact ih rfl (hP.relay _ _ _ hl h)
    · exact hk

theorem OpStable.resumeKey {P : State → Prop} (hP : OpStable P) {s : State} (h : P s) :
    (resumeKey s).Holds P := by
  rcases resumeKey_cases s with ⟨c, rest, hq, e⟩ | ⟨_, e⟩
  · rw [e]; exact hP.pop _ _ _ hq h
  · rw [e]; exact hP.awaitKey _ rfl h

theorem OpStable.getcEnd {P : State → Prop} (hP : OpStable P) {w : KeyWait} (h : w.Holds P) : P (getcEnd w) := by
  cases w with
  | key c t => exact hP.turn _ _ (hP.setReg _ _ _ h)
  | halted t => exact hP.turn _ _ h
  | holding t => exact hP.turn _ _ h

theorem OpStable.inEnd {P : State → Prop} (hP : OpStable P) {w : KeyWait} (h : w.Holds P) : P (inEnd w) := by
  cases w with
  | key c t => exact hP.turn _ _ (hP.emit _ _ (hP.setReg _ _ _ h))
  | halted t => exact hP.turn _ _ h
  | holding t => exact hP.turn _ _ h

theorem OpStable.getcService {P : State → Prop} (hP : OpStable P) {s : State} (h : P s) : P (getcService s) :=
  hP.getcEnd (hP.awaitKey _ rfl (hP.relayPoint h))

theorem OpStable.inService {P : State → Prop} (hP : OpStable P) (cfg : Config) {s : State} (h : P s) :
    P (inService cfg s) := by
  unfold Machine.inService
  split
  · exact h
  · exact hP.inEnd (hP.awaitKey _ rfl (hP.relayPoint h))

theorem OpStable.putspService {P : State → Prop} (hP : OpStable P) (cfg : Config) {s : State} (h : P s) :
    P (putspService cfg s) := by
  unfold Machine.putspService
  split
  · exact h
  · exact putspLoop_stable hP.string _ h

theorem OpStable.trapDispatch {P : State → Prop} (hP : OpStable P) (cfg : Config) (v : Byte) {s : State} (h : P s) :
    P (trapDispatch cfg v s) := by
  unfold Machine.trapDispatch
  split
  · exact hP.getcService h
  split
  · exact hP.emit _ _ h
  split
  · exact putsLoop_stable hP.string _ h
  split
  · exact hP.inService cfg h
  split
  · exact hP.putspService cfg h
  split
  · exact hP.stop _ h
  · exact h

/-- Every instruction keeps what its operations keep. -/
theorem OpStable.exec {P : State → Prop} (hP : OpStable P) {i : Instr} {s t : State} (h : exec i s = .next t)
    (hs : P s) : P t := by
  cases i with
  | br mask off =>
    cases h
    split
    · exact hP.setPc _ _ hs
    · exact hs
  | addReg dr sr1 sr2 => cases h; exact hP.setResult hs _ _
  | addImm dr sr1 imm => cases h; exact hP.setResult hs _ _
  | ld dr off => cases h; exact hP.setResult (hP.read _ _ hs) _ _
  | st sr off => cases h; exact hP.write _ _ _ hs
  | jsrr base => cases h; exact hP.setPc _ _ (hP.setReg _ _ _ hs)
  | jsr off => cases h; exact hP.setPc _ _ (hP.setReg _ _ _ hs)
  | andReg dr sr1 sr2 => cases h; exact hP.setReg _ _ _ hs
  | andImm dr sr1 imm => cases h; exact hP.setReg _ _ _ hs
  | ldr dr base off => cases h; exact hP.setResult (hP.read _ _ hs) _ _
  | str sr base off => cases h; exact hP.write _ _ _ hs
  | res8 => cases h; exact hs
  | not dr sr => cases h; exact hP.setResult hs _ _
  | ldi dr off => cases h; exact hP.setResult (hP.read _ _ (hP.read _ _ hs)) _ _
  | sti sr off => cases h; exact hP.write _ _ _ (hP.read _ _ hs)
  | jmp base => cases h; exact hP.setPc _ _ hs
  | res13 => cases h; exact hs
  | lea dr off => cases h; exact hP.setResult hs _ _
  | trap vect => cases h; exact hP.trapDispatch _ _ hs
  | trapGetc => cases h; exact hP.getcService hs
  | trapOut => cases h; exact hP.emit _ _ hs
  | trapPuts => cases h; exact putsLoop_stable hP.string _ hs
  | trapIn => cases h; exact hP.inService _ hs
  | trapPutsp => cases h; exact hP.putspService _ hs
  | trapHalt => cases h; exact hP.stop _ hs
  | ret => cases h; exact hP.setPc _ _ hs

/-- Every step keeps what its operations keep, provided the drain and the writes of `ir` and `pc` keep it too. -/
theorem OpStable.step {P : State → Prop} (hP : OpStable P) (drain : ∀ s, P s → P s.drain)
    (setIr : ∀ s w, P s → P { s with ir := w }) {s t : State} (h : step s = .next t) (hs : P s) : P t := by
  rw [step_eq] at h
  cases ha : s.activity with
  | betweenCycles =>
    rw [ha] at h; dsimp only at h
    split at h
    · refine hP.exec h ?_
      have hd := drain _ (hP.relayPoint (hP.relayPoint hs))
      exact setIr _ (s.relayPoint.relayPoint.drain.blockRead s.relayPoint.relayPoint.drain.pc).1
        (hP.setPc _ (s.relayPoint.relayPoint.drain.pc + 1) (hP.read _ s.relayPoint.relayPoint.drain.pc hd))
    · cases h; exact hP.turn _ _ (hP.relayPoint hs)
  | waitGetc => rw [ha] at h; cases h; exact hP.getcEnd (hP.resumeKey hs)
  | waitIn => rw [ha] at h; cases h; exact hP.inEnd (hP.resumeKey hs)
  | puts a => rw [ha] at h; cases h; exact putsLoop_stable hP.string _ hs
  | putsp a => rw [ha] at h; cases h; exact putspLoop_stable hP.string _ hs
  | runOver => rw [ha] at h; cases h; exact hs

/-- No instruction puts an action into the relay's list. -/
theorem stable_relay (l : List RelayEvent) : OpStable fun s => s.relay <:+ l where
  setReg _ _ _ h := h
  setFlags _ _ h := h
  setPc _ _ h := h
  read s a h := by
    unfold State.blockRead
    rw [memRead_eq]; dsimp only
    split
    · exact (relayPoint_relay s).trans h
    · exact h
  write _ _ _ h := h
  emit _ _ h := h
  turn _ _ h := h
  stop _ h := h
  relay s e rest hl h := by
    cases e with
    | push c => exact (List.suffix_cons _ _).trans (hl ▸ h)
    | halt => exact List.nil_suffix
    | pass => exact (List.suffix_cons _ _).trans (hl ▸ h)
  pop _ _ _ _ h := h

end Sys2Proof.Machine
end

