-- ==== Sys2Proof/Laws/Strings.lean ====
section
/-! SUPPORT. The bounded loops of PUTS and PUTSP against the unbounded ones of `PutsRun` and `PutspRun`. -/

namespace Sys2Proof.Machine

theorem relayRun_withActivity (l : List RelayEvent) (s : State) (x : Activity) :
    relayRun l { s with activity := x } = { relayRun l s with activity := x } := by
  induction l generalizing s with
  | nil => rfl
  | cons e l ih =>
    cases e with
    | push c => exact ih (s.relayAct l (.push c))
    | halt => rfl
    | pass => rfl

theorem memRead_withActivity (s : State) (a : Word) (x : Activity) :
    ({ s with activity := x } : State).memRead a = ((s.memRead a).1, { (s.memRead a).2 with activity := x }) := by
  unfold State.memRead
  split
  · unfold State.statusRead State.deliverPending; dsimp only
    split <;> rfl
  · split <;> rfl

/-- A read neither looks at `activity` nor changes it. -/
theorem blockRead_withActivity (s : State) (a : Word) (x : Activity) :
    ({ s with activity := x } : State).blockRead a = ((s.blockRead a).1, { (s.blockRead a).2 with activity := x }) := by
  unfold State.blockRead
  split
  · have h : ({ s with activity := x } : State).relayPoint = { s.relayPoint with activity := x } :=
      relayRun_withActivity _ _ _
    rw [h, memRead_withActivity]
  · rw [memRead_withActivity]

theorem PutsRun.withActivity {n : Nat} {a : Word} {s t : State} (h : PutsRun n a s t) (x : Activity) :
    PutsRun n a { s with activity := x } { t with activity := x } := by
  induction h with
  | @stop a s h =>
    have := PutsRun.stop (a := a) (s := { s with activity := x }) (by rw [blockRead_withActivity]; exact h)
    rwa [blockRead_withActivity] at this
  | @more n a s t h _ ih =>
    refine PutsRun.more (by rw [blockRead_withActivity]; exact h) ?_
    rw [blockRead_withActivity]; exact ih

theorem PutspRun.withActivity {n : Nat} {a : Word} {s t : State} (h : PutspRun n a s t) (x : Activity) :
    PutspRun n a { s with activity := x } { t with activity := x } := by
  induction h with
  | @stopLow a s h =>
    have := PutspRun.stopLow (a := a) (s := { s with activity := x }) (by rw [blockRead_withActivity]; exact h)
    rwa [blockRead_withActivity] at this
  | @stopHigh a s hl hh =>
    have := PutspRun.stopHigh (a := a) (s := { s with activity := x }) (by rw [blockRead_withActivity]; exact hl)
      (by rw [blockRead_withActivity]; exact hh)
    rwa [blockRead_withActivity] at this
  | @more n a s t hl hh _ ih =>
    refine PutspRun.more (by rw [blockRead_withActivity]; exact hl) (by rw [blockRead_withActivity]; exact hh) ?_
    rw [blockRead_withActivity]; exact ih

/-- A run of at most `m` words is done by the loop bounded by `m`. -/
theorem PutsRun.loop {n : Nat} {a : Word} {s t : State} (h : PutsRun n a s t) {m : Nat} (hm : n ≤ m) :
    putsLoop m a s = t.finish := by
  induction h generalizing m with
  | stop h =>
    obtain ⟨m, rfl⟩ : ∃ k, m = k + 1 := ⟨m - 1, by omega⟩
    unfold putsLoop; rw [if_pos h]
  | more h _ ih =>
    obtain ⟨m, rfl⟩ : ∃ k, m = k + 1 := ⟨m - 1, by omega⟩
    unfold putsLoop; rw [if_neg h]; exact ih (by omega)

theorem PutspRun.loop {n : Nat} {a : Word} {s t : State} (h : PutspRun n a s t) {m : Nat} (hm : n ≤ m) :
    putspLoop m a s = t.finish := by
  induction h generalizing m with
  | stopLow h =>
    obtain ⟨m, rfl⟩ : ∃ k, m = k + 1 := ⟨m - 1, by omega⟩
    unfold putspLoop; rw [if_pos h]
  | stopHigh hl hh =>
    obtain ⟨m, rfl⟩ : ∃ k, m = k + 1 := ⟨m - 1, by omega⟩
    unfold putspLoop; rw [if_neg hl, if_pos hh]
  | more hl hh _ ih =>
    obtain ⟨m, rfl⟩ : ∃ k, m = k + 1 := ⟨m - 1, by omega⟩
    unfold putspLoop; rw [if_neg hl, if_neg hh]; exact ih (by omega)

/-- The bounded loop either finishes a run or stops inside the string with the rest of it still to run: it is a run
to a state from which the rest goes on. -/
theorem putsLoop_cases (m : Nat) (a : Word) (s : State) :
    (∃ n t, n ≤ m ∧ PutsRun n a s t ∧ putsLoop m a s = t.finish) ∨
    (∃ b u, putsLoop m a s = { u with activity := .puts b } ∧
      ∀ n t, PutsRun n a s t ↔ m < n ∧ PutsRun (n - m) b u t) := by
  induction m generalizing a s with
  | zero =>
    refine .inr ⟨a, s, rfl, fun n t => ⟨fun h => ⟨?_, h⟩, fun h => h.2⟩⟩
    cases h <;> omega
  | succ m ih =>
    unfold putsLoop
    by_cases h : (s.blockRead a).1 = 0x0000
    · rw [if_pos h]; exact .inl ⟨1, _, by omega, .stop h, rfl⟩
    · rw [if_neg h]
      rcases ih (a + 1) ((s.blockRead a).2.emit (s.blockRead a).1) with ⟨n, t, hn, hr, hl⟩ | ⟨b, u, hl, hr⟩
      · exact .inl ⟨n + 1, t, by omega, .more h hr, hl⟩
      · refine .inr ⟨b, u, hl, fun n t => ⟨fun hn => ?_, fun ⟨hn, hu⟩ => ?_⟩⟩
        · cases hn with
          | stop h' => exact absurd h' h
          | @more k _ _ _ _ hk =>
            obtain ⟨h1, h2⟩ := (hr _ _).mp hk
            exact ⟨by omega, by rwa [Nat.add_sub_add_right]⟩
        · obtain ⟨k, rfl⟩ : ∃ k, n = k + 1 := ⟨n - 1, by omega⟩
          rw [Nat.add_sub_add_right] at hu
          exact .more h ((hr _ _).mpr ⟨by omega, hu⟩)

theorem putspLoop_cases (m : Nat) (a : Word) (s : State) :
    (∃ n t, n ≤ m ∧ PutspRun n a s t ∧ putspLoop m a s = t.finish) ∨
    (∃ b u, putspLoop m a s = { u with activity := .putsp b } ∧
      ∀ n t, PutspRun n a s t ↔ m < n ∧ PutspRun (n - m) b u t) := by
  induction m generalizing a s with
  | zero =>
    refine .inr ⟨a, s, rfl, fun n t => ⟨fun h => ⟨?_, h⟩, fun h => h.2⟩⟩
    cases h <;> omega
  | succ m ih =>
    unfold putspLoop
    by_cases hl : lowByte (s.blockRead a).1 = 0x00
    · rw [if_pos hl]; exact .inl ⟨1, _, by omega, .stopLow hl, rfl⟩
    by_cases hh : highByte (s.blockRead a).1 = 0x00
    · rw [if_neg hl, if_pos hh]; exact .inl ⟨1, _, by omega, .stopHigh hl hh, rfl⟩
    rw [if_neg hl, if_neg hh]
    rcases ih (a + 1) (((s.blockRead a).2.emit (zext (lowByte (s.blockRead a).1))).emit
        (zext (highByte (s.blockRead a).1))) with ⟨n, t, hn, hr, he⟩ | ⟨b, u, he, hr⟩
    · exact .inl ⟨n + 1, t, by omega, .more hl hh hr, he⟩
    · refine .inr ⟨b, u, he, fun n t => ⟨fun hn => ?_, fun ⟨hn, hu⟩ => ?_⟩⟩
      · cases hn with
        | stopLow h' => exact absurd h' hl
        | stopHigh _ h' => exact absurd h' hh
        | @more k _ _ _ _ _ hk =>
          obtain ⟨h1, h2⟩ := (hr _ _).mp hk
          exact ⟨by omega, by rwa [Nat.add_sub_add_right]⟩
      · obtain ⟨k, rfl⟩ : ∃ k, n = k + 1 := ⟨n - 1, by omega⟩
        rw [Nat.add_sub_add_right] at hu
        exact .more hl hh ((hr _ _).mpr ⟨by omega, hu⟩)

end Sys2Proof.Machine
end

