-- ==== Sys2Proof/Tests/Slice0.lean ====
section
/-! SUPPORT. The model's own tests. Expected results are from spec/95_test_vectors.md (W and V numbers) and from the
encodings of spec/30_encoding.md, none from the model. Then a witness for each obligation that has hypotheses. -/

namespace Sys2Proof.Tests

open Sys2Proof Sys2Proof.Machine

/-- The next state of a result, if it is one. -/
def nextOf : Result → Option State
  | .next t => some t
  | .fault _ => none
  | .refused _ => none

/-- One step from a state, seen through a function. -/
def after {α : Type} (s : State) (f : State → α) : Option α := (nextOf (step s)).map f

/-- Reset with one instruction word at 0x3000 (the start state of spec/95_test_vectors.md). -/
def at3000 (w : Word) : State := State.reset.setCell 0x3000 w

/-! ### WellFormed refuses an ill-formed term for each check -/

theorem test_wellFormed_refuses_jmp_r7 : (Instr.jmp 7).wellFormed = false := by decide
theorem test_wellFormed_refuses_service_vectors :
    (Instr.trap 0x20).wellFormed = false ∧ (Instr.trap 0x25).wellFormed = false := by decide
theorem test_wellFormed_accepts_neighbours :
    (Instr.jmp 6).wellFormed = true ∧ (Instr.trap 0x1F).wellFormed = true ∧ (Instr.trap 0x26).wellFormed = true := by
  decide

/-! ### Every constructor's decoding, by words written out from the formats of 30_encoding.md R93, R98 -/

theorem test_decode_br : decode 0b0000_101_000000101 = .br 0b101 5 := by decide
theorem test_decode_addReg : decode 0b0001_000_001_0_11_010 = .addReg 0 1 2 := by decide
theorem test_decode_addImm : decode 0b0001_000_001_1_10000 = .addImm 0 1 0b10000 := by decide
theorem test_decode_ld : decode 0b0010_010_000000010 = .ld 2 2 := by decide
theorem test_decode_st : decode 0b0011_011_000000101 = .st 3 5 := by decide
theorem test_decode_jsrr : decode 0b0100_0_11_011_000000 = .jsrr 3 := by decide
theorem test_decode_jsr : decode 0b0100_1_10000000000 = .jsr 0b10000000000 := by decide
theorem test_decode_andReg : decode 0b0101_010_011_0_00_100 = .andReg 2 3 4 := by decide
theorem test_decode_andImm : decode 0b0101_000_001_1_01111 = .andImm 0 1 15 := by decide
theorem test_decode_ldr : decode 0b0110_100_101_111111 = .ldr 4 5 0b111111 := by decide
theorem test_decode_str : decode 0b0111_001_110_000000 = .str 1 6 0 := by decide
theorem test_decode_res8 : decode 0b1000_101010101010 = .res8 := by decide
theorem test_decode_not : decode 0b1001_001_000_000000 = .not 1 0 := by decide
theorem test_decode_ldi : decode 0b1010_001_000000000 = .ldi 1 0 := by decide
theorem test_decode_sti : decode 0b1011_010_111111101 = .sti 2 0b111111101 := by decide
theorem test_decode_jmp : decode 0b1100_111_010_111111 = .jmp 2 := by decide
theorem test_decode_res13 : decode 0b1101_000100100011 = .res13 := by decide
theorem test_decode_lea : decode 0b1110_000_111111111 = .lea 0 0b111111111 := by decide
theorem test_decode_trap : decode 0b1111_0000_00100110 = .trap 0x26 := by decide
theorem test_decode_getc : decode 0b1111_0000_00100000 = .trapGetc := by decide
theorem test_decode_out : decode 0b1111_0000_00100001 = .trapOut := by decide
theorem test_decode_puts : decode 0b1111_0000_00100010 = .trapPuts := by decide
theorem test_decode_in : decode 0b1111_0000_00100011 = .trapIn := by decide
theorem test_decode_putsp : decode 0b1111_0000_00100100 = .trapPutsp := by decide
theorem test_decode_halt : decode 0b1111_0001_00100101 = .trapHalt := by decide
theorem test_decode_ret : decode 0b1100_000_111_000000 = .ret := by decide
theorem test_decodeTableWord : decodeTableWord 16 0x1063 = some (.addImm 0 1 3) ∧ decodeTableWord 17 0x1063 = none := by
  decide

/-! ### Operate -/

theorem test_W1_sign_extension : sext 0x1F#5 = 0xFFFF ∧ sext 0x0F#5 = 0x000F := by decide
theorem test_W2_addImm : after ((at3000 0x1063).setReg 1 5) (fun t => (t.getReg 0, t.cc, t.pc)) =
    some (8, .p, 0x3001) := by decide
theorem test_V1_addImm_overflow_wraps : after ((at3000 0x1061).setReg 1 0x7FFF) (fun t => (t.getReg 0, t.cc)) =
    some (0x8000, .n) := by decide
theorem test_V3_addReg_same_register : after ((at3000 0x1482).setReg 2 3) (fun t => (t.getReg 2, t.cc)) =
    some (6, .p) := by decide
theorem test_V5_addReg_zero : after (((at3000 0x1642).setReg 1 5).setReg 2 0xFFFB) (fun t => (t.getReg 3, t.cc)) =
    some (0, .z) := by decide
theorem test_V7_andReg_keeps_cc : after (((at3000 0x5042).setReg 1 0xF0F0).setReg 2 0x0FF0)
    (fun t => (t.getReg 0, t.cc)) = some (0x00F0, .z) := by decide
theorem test_V8_andReg_with_and_sets_cc :
    (fun t : State => (t.getReg 0, t.cc)) (andRegWith { andSetsCC := true } 0 1 2
      ((State.reset.setReg 1 0xF0F0).setReg 2 0x0FF0)) = (0x00F0, .p) := by decide
theorem test_V11_andImm_negative : after ((at3000 0x5070).setReg 1 0x1234) (fun t => (t.getReg 0, t.cc)) =
    some (0x1230, .z) := by decide
theorem test_V12_andImm_clears_keeps_cc : after ({ at3000 0x5020 with cc := .n }.setReg 0 0x1234)
    (fun t => (t.getReg 0, t.cc)) = some (0, .n) := by decide
theorem test_W8_not_zero : after (at3000 0x903F) (fun t => (t.getReg 0, t.cc)) = some (0xFFFF, .n) := by decide
theorem test_V16_not_ignores_low_bits : after ((at3000 0x9200).setReg 0 0x00FF) (fun t => (t.getReg 1, t.cc)) =
    some (0xFF00, .n) := by decide

/-! ### Data movement and the device registers -/

theorem test_V20_ld_own_word : after (at3000 0x21FF) (fun t => (t.getReg 0, t.cc)) = some (0x21FF, .p) := by decide
theorem test_V21_ld_wraps :
    after ({ State.reset with pc := 0xFFFF }.setCell 0xFFFF 0x2001 |>.setCell 0x0001 0xABCD)
      (fun t => (t.getReg 0, t.cc, t.pc)) = some (0xABCD, .n, 0) := by decide
theorem test_V22_status_read_after_drain :
    after { (at3000 0x6140).setReg 5 0xFE00 with queue := [0x0041] }
      (fun t => (t.getReg 0, t.cc, t.queue, t.cell 0xFE02, t.kbAvail)) =
      some (0x8000, .n, [], 0x0041, true) := by decide
theorem test_V23_status_read_nothing_pending :
    after (((at3000 0x6140).setReg 5 0xFE00).setCell 0xFE00 0x8000) (fun t => (t.getReg 0, t.cell 0xFE00, t.cc)) =
      some (0, 0, .z) := by decide
theorem test_V24_data_read :
    after { (((at3000 0x6142).setReg 5 0xFE00).setCell 0xFE00 0x8000).setCell 0xFE02 0x0041 with kbAvail := true }
      (fun t => (t.getReg 0, t.cc, t.kbAvail, t.cell 0xFE00)) = some (0x0041, .p, false, 0x8000) := by decide
theorem test_V25_ldr_dr_is_base : after (((at3000 0x6B40).setReg 5 0x4000).setCell 0x4000 0x9999)
    (fun t => (t.getReg 5, t.cc)) = some (0x9999, .n) := by decide
theorem test_W5_ldi_double_indirection :
    after (((at3000 0xA200).setCell 0x3001 0x4000).setCell 0x4000 0x1234) (fun t => (t.getReg 1, t.cc)) =
      some (0x1234, .p) := by decide
theorem test_V27_lea : after (at3000 0xE1FF) (fun t => (t.getReg 0, t.cc)) = some (0x3000, .p) := by decide
theorem test_V29_lea_zero : after ({ State.reset with pc := 0 }.setCell 0 0xE1FF) (fun t => (t.getReg 0, t.cc)) =
    some (0, .z) := by decide
theorem test_W4_st : after ((at3000 0x3605).setReg 3 0xBEEF) (fun t => (t.cell 0x3006, t.cc)) =
    some (0xBEEF, .z) := by decide
theorem test_V30_str_sr_is_base : after ((at3000 0x7B40).setReg 5 0x4000) (fun t => (t.cell 0x4000, t.cc)) =
    some (0x4000, .z) := by decide
theorem test_V31_sti_plain_store_to_status :
    after { ((at3000 0xB201).setCell 0x3002 0xFE00).setCell 0xFE00 0x8000 with kbAvail := true }
      (fun t => (t.cell 0xFE00, t.kbAvail)) = some (0, true) := by decide
theorem test_sti_example : after ((((at3000 0xB5FD).setCell 0x2FFE 0x5000)).setReg 2 0x00AA)
    (fun t => t.cell 0x5000) = some 0x00AA := by decide

/-- The table of status and data reads under 95_test_vectors.md 2.5, its first five reads. -/
theorem test_status_and_data_read_sequence :
    let s0 : State := { State.reset with queue := [0x0061, 0x0062] }
    let r1 := s0.memRead 0xFE00
    let r2 := r1.2.memRead 0xFE00
    let r3 := r2.2.memRead 0xFE02
    let r4 := r3.2.memRead 0xFE02
    let r5 := r4.2.memRead 0xFE00
    (r1.1, r2.1, r3.1, r4.1, r5.1) = (0x8000, 0x8000, 0x0061, 0x0061, 0x8000) ∧
    (r1.2.queue, r3.2.kbAvail, r5.2.queue) = ([0x0062], false, []) := by decide

/-! ### Control transfer -/

theorem test_V45_br_nz_p : (after { at3000 0x0A05 with cc := .n } State.pc, after { at3000 0x0A05 with cc := .z } State.pc,
    after { at3000 0x0A05 with cc := .p } State.pc) = (some 0x3006, some 0x3001, some 0x3006) := by decide
theorem test_V42_br_z : (after { at3000 0x0405 with cc := .n } State.pc, after { at3000 0x0405 with cc := .z } State.pc) =
    (some 0x3001, some 0x3006) := by decide
theorem test_V50_jmp : after ((at3000 0xC080).setReg 2 0x4000) State.pc = some 0x4000 := by decide
theorem test_V49_ret : after ((at3000 0xC1C0).setReg 7 0x3456) State.pc = some 0x3456 := by decide
theorem test_V52_jsr : after (at3000 0x4C00) (fun t => (t.getReg 7, t.pc)) = some (0x3001, 0x2C01) := by decide
theorem test_V54_jsrr : after ((at3000 0x40C0).setReg 3 0x5000) (fun t => (t.getReg 7, t.pc)) =
    some (0x3001, 0x5000) := by decide
theorem test_V55_jsrr_r7 : after ((at3000 0x41C0).setReg 7 0x5000) (fun t => (t.getReg 7, t.pc)) =
    some (0x3001, 0x3001) := by decide
theorem test_V81_res8 : after (at3000 0x8000) (fun t => (t.regs, t.pc, t.cc)) =
    some (State.reset.regs, 0x3001, .z) := by decide
theorem test_V82_res13 : after (at3000 0xDFFF) (fun t => (t.regs, t.pc, t.cc)) =
    some (State.reset.regs, 0x3001, .z) := by decide

/-! ### TRAP -/

theorem test_V60_out : after ((at3000 0xF021).setReg 0 0x1234) (fun t => (t.output, t.getReg 0)) =
    some ([0x1234], 0x1234) := by decide
theorem test_W6_puts : after ((((at3000 0xF022).setReg 0 0x4000).setCell 0x4000 0x0048).setCell 0x4001 0x0069)
    (fun t => (t.output, t.getReg 0, t.activity)) = some ([0x0048, 0x0069], 0x4000, .betweenCycles) := by decide
theorem test_V61_puts_wraps : after (((at3000 0xF022).setReg 0 0xFFFF).setCell 0xFFFF 0x0041) State.output =
    some [0x0041] := by decide
theorem test_V62_putsp : after ((((at3000 0xF024).setReg 0 0x4000).setCell 0x4000 0x6948).setCell 0x4001 0x0021)
    State.output = some [0x0048, 0x0069, 0x0021] := by decide
theorem test_V63_putsp_low_zero : after (((at3000 0xF024).setReg 0 0x4000).setCell 0x4000 0x4100) State.output =
    some [] := by decide
theorem test_V65_in : after { (at3000 0xF023).setCell 0xFE00 0x8000 with queue := [0x0079] }
    (fun t => (t.getReg 0, t.output, t.queue)) = some (0x0079, [0x0079], []) := by decide
theorem test_V64_V66_stubs :
    let s : State := { State.reset with queue := [0x0079] }
    inService { trapStubMode := true } s = s ∧ putspService { trapStubMode := true } s = s := ⟨rfl, rfl⟩
theorem test_V67_getc : after { (at3000 0xF020).setCell 0xFE00 0x8000 with queue := [0x0041] }
    (fun t => (t.getReg 0, t.queue, t.output, t.cc)) = some (0x0041, [], [], .z) := by decide
theorem test_V68_getc_key_drained : after { at3000 0xF020 with queue := [0x0041] }
    (fun t => (t.queue, t.cell 0xFE02, t.cell 0xFE00, t.activity)) = some ([], 0x0041, 0x8000, .waitGetc) := by decide
theorem test_V70_halt : after (at3000 0xF125) (fun t => (t.running, t.pc)) = some (false, 0x3001) := by decide
theorem test_V71_unknown_vector : after (at3000 0xF026) (fun t => (t.regs, t.pc, t.running)) =
    some (State.reset.regs, 0x3001, true) := by decide

/-- W10 and V69: in GETC's wait a key pushed goes to R0; a halt request ends the wait with no pop. -/
theorem test_W10_V69_getc_wait :
    (after { (at3000 0xF020).setCell 0xFE00 0x8000 with relay := [.pass, .pass, .pass, .push 0x0041] }
      (fun t => (t.getReg 0, t.queue, t.output, t.cc)) = some (0x0041, [], [], .z)) ∧
    (after ({ (at3000 0xF020).setCell 0xFE00 0x8000 with relay := [.pass, .pass, .pass, .halt] }.setReg 0 0x7777)
      (fun t => (t.getReg 0, t.running, t.pc)) = some (0x7777, false, 0x3001)) := by decide

/-- 60_exceptions.md R232(d) between two steps of a held wait: the push came first, so the key is popped; with the halt
request alone there is no pop. -/
theorem test_held_wait_takes_the_order :
    after (({ State.reset with activity := .waitGetc }.pushKey 0x41).haltRequest)
      (fun t => (t.getReg 0, t.queue, t.running)) = some (0x41, [], false) ∧
    after (({ State.reset with activity := .waitIn }.pushKey 0x41).haltRequest)
      (fun t => (t.getReg 0, t.output, t.running)) = some (0x41, [0x41], false) ∧
    after ({ State.reset with activity := .waitIn }.haltRequest)
      (fun t => (t.getReg 0, t.output, t.running)) = some (0, [], false) := by decide

/-! ### The cycle -/

theorem test_V80_fetch_wraps : after { State.reset with pc := 0xFFFF } State.pc = some 0 := by decide
theorem test_V83_drain : after { State.reset with queue := [0x0041] }
    (fun t => (t.queue, t.cell 0xFE02, t.cell 0xFE00, t.kbAvail, t.pc)) =
    some ([], 0x0041, 0x8000, true, 0x3001) := by decide
theorem test_V84_no_drain : after { State.reset.setCell 0xFE00 0x8000 with queue := [0x0041] }
    (fun t => (t.queue, t.pc)) = some ([0x0041], 0x3001) := by decide
theorem test_V85_fetch_is_a_status_read : after { State.reset with pc := 0xFE00, queue := [0x0041] }
    (fun t => (t.ir, t.pc, t.cell 0xFE02)) = some (0x8000, 0xFE01, 0x0041) := by decide
theorem test_V86_halted : after { at3000 0x1063 with running := false, queue := [0x0041] }
    (fun t => (t.pc, t.queue, t.regs, t.activity)) = some (0x3000, [0x0041], State.reset.regs, .runOver) := by decide

/-! ### Load -/

/-- An image's load seen through a function. -/
def loaded {α : Type} (image : List Byte) (f : State → α) : Option α :=
  match boot image with
  | .ok s => some (f s)
  | .error _ => none

theorem test_W9_load : loaded [0x30, 0x00, 0x12, 0x34, 0xAB, 0xCD] State.mem =
    some [(0x3000, 0x1234), (0x3001, 0xABCD)] := by decide
theorem test_V90_load_wraps : loaded [0xFF, 0xFF, 0x11, 0x11, 0x22, 0x22] State.mem =
    some [(0x0000, 0x2222), (0xFFFF, 0x1111)] := by decide
theorem test_V91_V92_V93_load :
    loaded [0x30, 0x00, 0x12, 0x34, 0x56] State.mem = some [(0x3000, 0x1234)] ∧
    loaded [0x40, 0x00] (fun s => (s.mem, s.pc)) = some ([], 0x3000) ∧
    loaded [0x30] State.mem = none ∧ loaded [] State.mem = none := by decide

/-! ### Witnesses: states and operands that meet the obligations' hypotheses together -/

theorem wit_SignExtension : 0 < 1 ∧ 16 ≤ 16 ∧ (0x1F#5).getLsbD (5 - 1) = true ∧ (0x0F#5).getLsbD (5 - 1) = false := by
  decide
theorem wit_DecodeOfEncode : (Instr.addReg 7 0 7).wellFormed = true ∧ (Instr.ret).wellFormed = true := by decide
theorem wit_IgnoredBits : (0x105A#16 : Word) &&& (decode 0x105A).readBits = 0x1042 &&& (decode 0x105A).readBits := by
  decide
/-- The two clauses' hypotheses, the second with a word at pc that decodes to ADD. -/
theorem wit_StepRunsTheDecodedInstruction :
    (at3000 0x1063).activity = .betweenCycles ∧ (at3000 0x1063).relayPoint.running = true ∧
    (at3000 0x1063).running = true ∧ (at3000 0x1063).queue = [] ∧ (at3000 0x1063).relay = [] ∧
    (at3000 0x1063).pc ≠ 0xFE00 ∧ (at3000 0x1063).pc ≠ 0xFE02 ∧
    decode ((at3000 0x1063).cell (at3000 0x1063).pc) = .addImm 0 1 3 := by decide
theorem wit_DrainMovesTheOldestKey :
    (∃ s : State, s.mem.wf = true ∧ s.queue = [0x61, 0x62] ∧ s.ready = false) ∧
    (∃ s : State, s.queue = [0x61] ∧ s.ready = true) ∧ (∃ s : State, s.queue = [] ∧ s.ready = false) :=
  ⟨⟨{ State.reset with queue := [0x61, 0x62] }, by decide⟩,
    ⟨{ State.reset.setCell 0xFE00 0x8000 with queue := [0x61] }, by decide⟩, ⟨State.reset, by decide⟩⟩
theorem wit_HaltCheckEndsTheRun :
    (∃ s : State, s.activity = .betweenCycles ∧ s.relayPoint.running = false ∧ s.running = true) ∧
    (∃ s : State, s.activity = .betweenCycles ∧ s.running = false ∧ s.relay = []) ∧
    (∃ s : State, s.activity = .runOver) :=
  ⟨⟨{ State.reset with relay := [.halt] }, by decide⟩, ⟨{ State.reset with running := false }, by decide⟩,
    ⟨{ State.reset with activity := .runOver }, rfl⟩⟩
theorem wit_OnlyHaltAndTheRelayClearRunning :
    (∃ s t : State, s.running = false ∧ step s = .next t) ∧
    (∃ s t : State, s.running = true ∧ exec .trapHalt s = .next t ∧ t.running = false) ∧
    (∃ s t : State, s.running = true ∧ exec .trapGetc s = .next t ∧ t.running = false) ∧
    (∃ s t : State, s.running = true ∧ s.relay = [] ∧ step s = .next t ∧ t.running = false) ∧
    (∃ s t : State, s.running = true ∧ s.activity = .waitIn ∧ step s = .next t ∧ t.running = false) :=
  ⟨⟨{ State.reset with running := false }, _, by decide, rfl⟩, ⟨State.reset, _, rfl, rfl, rfl⟩,
    ⟨{ State.reset with relay := [.halt] }, _, rfl, rfl, rfl⟩, ⟨at3000 0xF025, _, by decide, by decide, rfl, by decide⟩,
    ⟨{ State.reset with activity := .waitIn, relay := [.pass, .halt] }, _, rfl, rfl, rfl, rfl⟩⟩
theorem wit_StepKeepsTheInvariant : ∃ s t : State, s.Inv ∧ step s = .next t ∧ s.mem ≠ [] :=
  ⟨at3000 0x3605, _, ⟨by decide, by decide⟩, rfl, by decide⟩
theorem wit_OutputOnlyGrows : ∃ s t : State, step s = .next t ∧ s.output ≠ t.output :=
  ⟨(at3000 0xF021).setReg 0 0x41, _, rfl, by decide⟩
theorem wit_KeysLeaveInArrivalOrder : ∃ s t : State, step s = .next t ∧ s.pendingKeys = [0x61, 0x62] :=
  ⟨{ State.reset with queue := [0x61], relay := [.pass, .push 0x62] }, _, rfl, by decide⟩
theorem wit_PlacedWordRunsNext : ∃ s : State, s.mem.wf = true ∧ s.pc = 0xFE00 :=
  ⟨{ State.reset with pc := 0xFE00 }, by decide⟩
theorem wit_StatusRead :
    (∃ s : State, s.mem.wf = true ∧ s.kbAvail = false ∧ s.queue = [0x61]) ∧
    (∃ s : State, s.mem.wf = true ∧ s.kbAvail = true) ∧
    (∃ s : State, s.mem.wf = true ∧ s.kbAvail = false ∧ s.queue = []) :=
  ⟨⟨{ State.reset with queue := [0x61] }, by decide⟩, ⟨{ State.reset with kbAvail := true }, by decide⟩,
    ⟨State.reset, by decide⟩⟩
theorem wit_OrdinaryRead : (0xFE01 : Word) ≠ 0xFE00 ∧ (0xFE01 : Word) ≠ 0xFE02 := by decide
theorem wit_BlockRead : (0xFE02 : Word) ≠ 0xFE00 ∧ State.reset.relay = [] := by decide
/-- Also for `StAndStrStoreAtTheComputedAddress`. -/
theorem wit_WriteIsAPlainStore : (at3000 0x3605).mem.wf = true := by decide
theorem wit_StoreOntoTheNextInstruction :
    (at3000 0x1063).mem.wf = true ∧ (at3000 0x1063).activity = .betweenCycles ∧ (at3000 0x1063).running = true ∧
    (at3000 0x1063).queue = [] ∧ (at3000 0x1063).relay = [] ∧ (at3000 0x1063).pc ≠ 0xFE00 ∧
    (at3000 0x1063).pc ≠ 0xFE02 := by decide
/-- The opcode hypotheses of the statements about instructions, and JSR's and JSRR's bit 11. -/
theorem wit_opcodes :
    (0x1063#16).extractLsb' 12 4 = 0b0001#4 ∧ (0x54C4#16).extractLsb' 12 4 = 0b0101#4 ∧
    (0x903F#16).extractLsb' 12 4 = 0b1001#4 ∧ (0x2402#16).extractLsb' 12 4 = 0b0010#4 ∧
    (0xA200#16).extractLsb' 12 4 = 0b1010#4 ∧ (0x697F#16).extractLsb' 12 4 = 0b0110#4 ∧
    (0xE1FF#16).extractLsb' 12 4 = 0b1110#4 ∧ (0x3605#16).extractLsb' 12 4 = 0b0011#4 ∧
    (0x7380#16).extractLsb' 12 4 = 0b0111#4 ∧ (0xB5FD#16).extractLsb' 12 4 = 0b1011#4 ∧
    (0x05FE#16).extractLsb' 12 4 = 0b0000#4 ∧ (0xC080#16).extractLsb' 12 4 = 0b1100#4 ∧
    (0x4810#16).extractLsb' 12 4 = 0b0100#4 ∧ (0x4810#16).getLsbD 11 = true ∧
    (0x40C0#16).extractLsb' 12 4 = 0b0100#4 ∧ (0x40C0#16).getLsbD 11 = false ∧
    (0x8000#16).extractLsb' 12 4 = 0b1000#4 ∧ (0xD123#16).extractLsb' 12 4 = 0b1101#4 ∧
    (0xF025#16).extractLsb' 12 4 = 0b1111#4 := by decide
/-- The cases of `SetFlagsClassifiesTheRegister` at their boundaries. -/
theorem wit_SetFlags :
    State.reset.getReg 0 = 0 ∧ 0x8000 ≤ ((State.reset.setReg 1 0x8000).getReg 1).toNat ∧
    0 < ((State.reset.setReg 1 0x7FFF).getReg 1).toNat ∧ ((State.reset.setReg 1 0x7FFF).getReg 1).toNat < 0x8000 ∧
    0 < ((State.reset.setReg 1 1).getReg 1).toNat ∧ ((State.reset.setReg 1 1).getReg 1).toNat < 0x8000 := by decide
theorem wit_AndSetsCC : ({ andSetsCC := true } : Config).andSetsCC = true := rfl
theorem wit_LdOrdinaryAddress : State.reset.pc + (5 : BitVec 9).signExtend 16 ≠ 0xFE00 ∧
    State.reset.pc + (5 : BitVec 9).signExtend 16 ≠ 0xFE02 := by decide
theorem wit_Ldi : ∃ s s1 s2 : State, s.blockRead (s.pc + (0 : BitVec 9).signExtend 16) = (0xFE02, s1) ∧
    s1.blockRead 0xFE02 = (0x41, s2) ∧ s2.kbAvail = false ∧ s.kbAvail = true :=
  ⟨{ (State.reset.setCell 0x3000 0xFE02).setCell 0xFE02 0x41 with kbAvail := true }, _, _, rfl, rfl, rfl, rfl⟩
theorem wit_LdiWithNoRelayAction : ∃ s s1 s2 : State, s.relay = [] ∧
    s.memRead (s.pc + (0 : BitVec 9).signExtend 16) = (0xFE00, s1) ∧ s1.memRead 0xFE00 = (0x8000, s2) :=
  ⟨{ State.reset.setCell 0x3000 0xFE00 with kbAvail := true }, _, _, rfl, rfl, rfl⟩
theorem wit_Sti : ∃ s s1 s2 : State, s.mem.wf = true ∧ s.relay = [] ∧
    s.blockRead (s.pc + (0 : BitVec 9).signExtend 16) = (0x5000, s1) ∧
    s.memRead (s.pc + (0 : BitVec 9).signExtend 16) = (0x5000, s2) :=
  ⟨State.reset.setCell 0x3000 0x5000, _, _, by decide, rfl, rfl, rfl⟩
theorem wit_LoadsLeaveMemory : ∃ s t : State, s.mem.wf = true ∧ exec (.ldr 0 5 0) s = .next t ∧ s.mem ≠ t.mem :=
  ⟨{ State.reset.setReg 5 0xFE00 with queue := [0x41] }, _, by decide, rfl, by decide⟩
/-- The branch cases, and every other one: mask bit set and mask bit clear for each condition code. -/
theorem wit_Branch : State.reset.cc = .z ∧ (0b010#3).getLsbD 1 = true ∧ (0b101#3).getLsbD 1 = false := by decide
theorem wit_ReturnGoesToTheAddressAfterTheCall :
    (∃ s t u : State, exec (.jsr 16) s = .next t ∧ u.getReg 7 = t.getReg 7) ∧
    (∃ s t : State, exec (decodeTrap 0x21) s = .next t) :=
  ⟨⟨State.reset, _, _, rfl, rfl⟩, ⟨State.reset, _, rfl⟩⟩
theorem wit_ReservedOpcodes : ∃ s r : State, s.activity = .betweenCycles ∧ s.running = true ∧ s.relay = [] ∧
    s.drain.fetch.ir.extractLsb' 12 4 = 0b1000 ∧ r.activity = .betweenCycles ∧ r.running = true ∧ r.relay = [] ∧
    r.drain.fetch.ir.extractLsb' 12 4 = 0b1101 := ⟨at3000 0x8ABC, at3000 0xD001, by decide⟩
theorem wit_TrapVector : (0x1F#8).toNat < 0x20 ∧ 0x25 < (0x26#8).toNat := by decide
theorem wit_TrapLeaves : ∃ s t : State, s.mem.wf = true ∧ exec (decodeTrap 0x22) s = .next t ∧ t.output = [0x48] :=
  ⟨(State.reset.setReg 0 0x4000).setCell 0x4000 0x48, _, by decide, rfl, by decide⟩
/-- The clauses of `TrapLeavesPcCcAndRegistersAlone` about Q and `running`: with a halt request to come that OUT does
not take, and with none to come. -/
theorem wit_TrapLeavesQueueAndRunning :
    (∃ s t : State, s.mem.wf = true ∧ exec (decodeTrap 0x21) s = .next t ∧ s.relay = [.halt]) ∧
    (∃ s t : State, s.mem.wf = true ∧ exec (decodeTrap 0x20) s = .next t ∧ .halt ∉ s.relay ∧ s.relay = [.push 0x41]) :=
  ⟨⟨{ State.reset with relay := [.halt] }, _, by decide, rfl, rfl⟩,
    ⟨{ State.reset with relay := [.push 0x41] }, _, by decide, rfl, by decide, rfl⟩⟩
/-- Also for `InPopsAndEchoesTheOldestKey`. -/
theorem wit_Getc : ∃ s : State, s.running = true ∧ s.relay = [] ∧ s.queue = [0x41, 0x42] :=
  ⟨{ State.reset with queue := [0x41, 0x42] }, by decide⟩
theorem wit_StubMode : ({ trapStubMode := true } : Config).trapStubMode = true := rfl
theorem wit_Halt : ∃ s t : State, s.activity = .betweenCycles ∧ s.relay = [] ∧ exec .trapHalt s = .next t :=
  ⟨State.reset, _, rfl, rfl, rfl⟩
theorem wit_WaitHolds :
    (∃ s : State, s.running = true ∧ s.queue = [] ∧ s.relay = [] ∧ s.activity = .waitGetc) ∧
    (∃ s : State, s.running = true ∧ s.queue = [] ∧ s.relay = [] ∧ s.activity = .waitIn) :=
  ⟨⟨{ State.reset with activity := .waitGetc }, by decide⟩, ⟨{ State.reset with activity := .waitIn }, by decide⟩⟩
theorem wit_ReturnWhenHalted : ∃ s : State, s.running = false ∧ s.relay = [] ∧ s.queue = [0x41] :=
  ⟨{ State.reset with running := false, queue := [0x41] }, by decide⟩
theorem wit_WaitTakesRelayActionsInOrder :
    (∃ s : State, s.running = true ∧ s.queue = [] ∧
      s.relay = List.replicate (0 + 1) .pass ++ .push 0x41 :: .halt :: []) ∧
    (∃ s : State, s.running = true ∧ s.queue = [] ∧
      s.relay = List.replicate (1 + 1) .pass ++ .halt :: .push 0x41 :: []) :=
  ⟨⟨{ State.reset with relay := [.pass, .push 0x41, .halt] }, by decide⟩,
    ⟨{ State.reset with relay := [.pass, .pass, .halt, .push 0x41] }, by decide⟩⟩
/-- Each first action of `RelayPointTakesTheDueActions`, the push onto a Q that is not empty, and a step after a halt
request with a key in Q and pushes in the list. -/
theorem wit_RelayPoint :
    State.reset.relay = [] ∧
    (∃ s : State, s.relay = .push 0x62 :: .halt :: [] ∧ s.queue = [0x61] ∧ s.relayPoint.queue = [0x61, 0x62]) ∧
    (∃ s : State, s.relay = .halt :: .push 0x62 :: []) ∧ (∃ s : State, s.relay = .pass :: .push 0x62 :: []) ∧
    (∃ s t : State, s.relay = [.push 0x62] ∧ s.queue = [0x61] ∧ step s.haltRequest = .next t) :=
  ⟨rfl, ⟨{ State.reset with queue := [0x61], relay := [.push 0x62, .halt] }, by decide⟩,
    ⟨{ State.reset with relay := [.halt, .push 0x62] }, rfl⟩, ⟨{ State.reset with relay := [.pass, .push 0x62] }, rfl⟩,
    ⟨{ State.reset with queue := [0x61], relay := [.push 0x62] }, _, rfl, rfl, rfl⟩⟩
/-- A two-word string whose addresses wrap, for PUTS; a packed string ending in each of the two ways, for PUTSP. -/
theorem wit_PutsAndPutsp :
    (∃ s : State, (∀ k ≤ 2, s.getReg 0 + BitVec.ofNat 16 k ≠ 0xFE00 ∧ s.getReg 0 + BitVec.ofNat 16 k ≠ 0xFE02) ∧
      (∀ k < 2, s.cell (s.getReg 0 + BitVec.ofNat 16 k) ≠ 0) ∧ s.cell (s.getReg 0 + BitVec.ofNat 16 2) = 0) ∧
    (∃ s : State, (∀ k ≤ 1, s.getReg 0 + BitVec.ofNat 16 k ≠ 0xFE00 ∧ s.getReg 0 + BitVec.ofNat 16 k ≠ 0xFE02) ∧
      (∀ k < 1, (s.cell (s.getReg 0 + BitVec.ofNat 16 k)).extractLsb' 0 8 ≠ 0#8 ∧
        (s.cell (s.getReg 0 + BitVec.ofNat 16 k)).extractLsb' 8 8 ≠ 0#8) ∧
      (s.cell (s.getReg 0 + BitVec.ofNat 16 1)).extractLsb' 0 8 ≠ 0#8 ∧
      (s.cell (s.getReg 0 + BitVec.ofNat 16 1)).extractLsb' 8 8 = 0#8) ∧
    (∃ s : State, (s.cell (s.getReg 0 + BitVec.ofNat 16 0)).extractLsb' 0 8 = 0#8) :=
  ⟨⟨((State.reset.setReg 0 0xFFFF).setCell 0xFFFF 0x48).setCell 0 0x69, by decide⟩,
    ⟨((State.reset.setReg 0 0x4000).setCell 0x4000 0x6948).setCell 0x4001 0x21, by decide⟩, ⟨State.reset, by decide⟩⟩
theorem wit_EveryTerminatedString :
    (∃ s t : State, PutsRun 1 (s.getReg 0) s t) ∧ (∃ s t : State, PutspRun 1 (s.getReg 0) s t) :=
  ⟨⟨State.reset, _, .stop (by decide)⟩, ⟨State.reset, _, .stopLow (by decide)⟩⟩
theorem wit_DrainedKeyIsNotSeenByGetc : ∃ s : State, s.mem.wf = true ∧ s.activity = .betweenCycles ∧
    s.running = true ∧ s.relay = [] ∧ s.queue = [0x41] ∧ s.ready = false ∧ s.pc ≠ 0xFE00 ∧ s.pc ≠ 0xFE02 ∧
    decode (s.cell s.pc) = .trapGetc := ⟨{ at3000 0xF020 with queue := [0x41] }, by decide⟩
theorem wit_OnlyTheNamedRegister : (Instr.addReg 1 2 3).wellFormed = true ∧ writesReg (.addReg 1 2 3) ≠ some 4 ∧
    ∃ t, exec (.addReg 1 2 3) State.reset = .next t := ⟨by decide, by decide, _, rfl⟩
theorem wit_OnlyTheReadRegisters : (Instr.trapPuts).wellFormed = true ∧ 5#3 ∉ readsRegs .trapPuts ∧
    AgreeExcept 5 (State.reset.setReg 5 1) State.reset :=
  ⟨by decide, by decide, ⟨fun q hq => by rw [State.getReg_setReg, if_neg (Ne.symm hq)], rfl⟩⟩
theorem wit_CcAndPc : (Instr.andReg 0 1 2).wellFormed = true ∧ writesCC (.andReg 0 1 2) = false ∧
    writesCC (.lea 0 0) = true ∧ writesPc (.andReg 0 1 2) = false ∧
    ∃ t, exec (.andReg 0 1 2) State.reset = .next t := ⟨by decide, by decide, by decide, by decide, _, rfl⟩
theorem wit_LoadPlacesTheImage :
    2 * 1 + 1 < ([0x30, 0x00, 0x12, 0x34] : List Byte).length ∧ State.reset.mem.wf = true ∧
    imageWords [0x30, 0x00, 0x12, 0x34] = 0x3000#16 :: [0x1234#16] ∧ ([0x1234#16] : List Word).length ≤ 65536 := by decide

/-! A memory with no zero byte anywhere, for the strings that never end. -/

/-- So many cells from an address on, each 0x0101. -/
def fill : Nat → Nat → Memory
  | 0, _ => []
  | n + 1, k => (k, 0x0101) :: fill n (k + 1)

theorem fill_mem {n k : Nat} {c : Nat × Word} (h : c ∈ fill n k) : k ≤ c.1 := by
  induction n generalizing k with
  | zero => cases h
  | succ n ih =>
    rcases List.mem_cons.mp h with rfl | h
    · exact Nat.le_refl k
    · have := ih h; omega

theorem fill_wf {n k : Nat} (h : k + n ≤ 65536) : Memory.wf (fill n k) = true := by
  induction n generalizing k with
  | zero => rfl
  | succ n ih =>
    exact Memory.wf_cons.mpr ⟨by omega, by decide, fun c hc => by have := fill_mem hc; omega, ih (by omega)⟩

theorem fill_read {n k a : Nat} (h1 : k ≤ a) (h2 : a < k + n) : Memory.read (fill n k) a = 0x0101 := by
  induction n generalizing k with
  | zero => omega
  | succ n ih =>
    rw [fill, Memory.read_cons]
    split
    · rfl
    · exact ih (by omega) (by omega)

/-- Every cell 0x0101, no key and no relay action. -/
def Full (s : State) : Prop :=
  s.mem.wf = true ∧ (∀ a : Word, s.cell a = 0x0101) ∧ s.kbAvail = false ∧ s.queue = [] ∧ s.relay = []

/-- A read of a full state answers 0x0101 and leaves it full, the device registers included. -/
theorem Full.read {s : State} (h : Full s) (a : Word) : (s.blockRead a).1 = 0x0101 ∧ Full (s.blockRead a).2 := by
  obtain ⟨hw, hc, hk, hq, hr⟩ := h
  have hd : s.deliverPending = s := by
    rcases deliverPending_cases s with ⟨c, rest, _, h, _⟩ | ⟨_, h⟩
    · simp [hq] at h
    · exact h
  unfold State.blockRead
  rw [relayPoint_of_nil hr, ite_self]
  unfold State.memRead
  split
  · have hcell : ∀ b, (s.setReady false).cell b = 0x0101 := by
      intro b
      rw [State.setReady, State.cell_setCell hw, hc kbsr]
      split
      · decide
      · exact hc b
    simp only [State.statusRead, hd, hk]
    exact ⟨hcell _, State.wf_setCell hw _ _, hcell, hk, hq, hr⟩
  · split
    · exact ⟨hc _, hw, hc, rfl, hq, hr⟩
    · exact ⟨hc _, hw, hc, hk, hq, hr⟩

theorem Full.no_puts {n : Nat} {a : Word} {s t : State} (h : PutsRun n a s t) : ¬ Full s := by
  induction h with
  | stop h => exact fun hs => absurd ((hs.read _).1.symm.trans h) (by decide)
  | more h _ ih => exact fun hs => ih (hs.read _).2

theorem Full.no_putsp {n : Nat} {a : Word} {s t : State} (h : PutspRun n a s t) : ¬ Full s := by
  induction h with
  | stopLow h => exact fun hs => absurd ((congrArg lowByte (hs.read _).1).symm.trans h) (by decide)
  | stopHigh _ h => exact fun hs => absurd ((congrArg highByte (hs.read _).1).symm.trans h) (by decide)
  | more _ _ _ ih => exact fun hs => ih (hs.read _).2

theorem wit_UnterminatedString :
    ∃ s : State, (∀ n t, ¬ PutsRun n (s.getReg 0) s t) ∧ (∀ n t, ¬ PutspRun n (s.getReg 0) s t) := by
  have h : Full { State.reset with mem := fill 65536 0 } :=
    ⟨fill_wf (by omega), fun a => fill_read (by omega) (by have := a.isLt; omega), rfl, rfl, rfl⟩
  exact ⟨_, fun _ _ hr => Full.no_puts hr h, fun _ _ hr => Full.no_putsp hr h⟩

end Sys2Proof.Tests
end

section
/-! PROOFS. Sign and zero extension (00_scope.md R8). -/

namespace Sys2Proof.Machine

/-- The rule's mask `0xFFFF << n` holds exactly the bits from `n` up. -/
theorem getLsbD_onesAbove (n : Nat) {i : Nat} (hi : i < 16) :
    (0xFFFF#16 <<< n).getLsbD i = decide (n ≤ i) := by
  have ones : 0xFFFF#16 = BitVec.allOnes 16 := rfl
  rw [ones, BitVec.getLsbD_shiftLeft, BitVec.getLsbD_allOnes]
  by_cases h : n ≤ i
  · simp [hi, h, show ¬ i < n by omega, show i - n < 16 by omega]
  · simp [h, show i < n by omega]

/-- An `n`-bit value, zero-extended, and the mask from bit `n` up have no bit in common. -/
theorem setWidth_and_onesAbove {n : Nat} (v : BitVec n) : v.setWidth 16 &&& 0xFFFF#16 <<< n = 0#16 := by
  refine BitVec.eq_of_getLsbD_eq fun i hi => ?_
  rw [BitVec.getLsbD_and, getLsbD_onesAbove n hi]
  by_cases h : n ≤ i
  · simp [BitVec.getLsbD_of_ge v i h]
  · simp [h]

theorem sext_of_msb_false {n : Nat} {v : BitVec n} (h : v.msb = false) : sext v = v.setWidth 16 :=
  BitVec.signExtend_eq_setWidth_of_msb_false h

/-- A set top bit is copied into every bit from `n` up. -/
theorem sext_of_msb_true {n : Nat} {v : BitVec n} (h : v.msb = true) :
    sext v = v.setWidth 16 ||| 0xFFFF#16 <<< n := by
  refine BitVec.eq_of_getLsbD_eq fun i hi => ?_
  rw [sext, BitVec.getLsbD_signExtend, BitVec.getLsbD_or, getLsbD_onesAbove n hi, h]
  by_cases hn : n ≤ i
  · simp [hi, hn, show ¬ i < n by omega]
  · simp [hi, hn, show i < n by omega]

/-- R8's formula, which needs no bound on the width: the sum has no carries, so it is the bitwise or. -/
theorem sext_eq_add_onesAbove {n : Nat} (v : BitVec n) :
    sext v = v.setWidth 16 + (if v.msb then 0xFFFF#16 <<< n else 0#16) := by
  cases h : v.msb with
  | false => simp [sext_of_msb_false h]
  | true =>
    rw [if_pos rfl, sext_of_msb_true h, BitVec.add_eq_or_of_and_eq_zero _ _ (setWidth_and_onesAbove v)]

@[simp] theorem zext_toNat (v : Byte) : (zext v).toNat = v.toNat :=
  BitVec.toNat_setWidth_of_le (by decide)

end Sys2Proof.Machine

open Sys2Proof.Machine

/-- Settles O1: R8's formula holds at every width, the top bit being bit `n - 1`; a byte fits in a word. -/
theorem signExtensionAddsTheTopBitsAbove : Obligations.SignExtensionAddsTheTopBitsAbove := by
  unfold Obligations.SignExtensionAddsTheTopBitsAbove
  refine ⟨fun n v _ _ => ?_, zext_toNat⟩
  rw [← BitVec.msb_eq_getLsbD_last]
  exact sext_eq_add_onesAbove v

end

section
/-! PROOFS. The vectors of TRAP (30_encoding.md R99; 44_trap.md R200 and R209). -/

namespace Sys2Proof

/-- Opcode 0xF is the decoder's last case: only bits 7:0 are read. -/
theorem decode_of_opcode_trap {w : Word} (h : fieldOpcode w = 0xF#4) : decode w = decodeTrap (fieldVect w) := by
  simp [decode, h]

theorem isServiceVector_eq_false_iff {v : Byte} :
    isServiceVector v = false ↔ v.toNat < 0x20 ∨ 0x25 < v.toNat := by
  have hlo : 0x20#8 ≤ v ↔ 0x20 ≤ v.toNat := BitVec.le_def
  have hhi : v ≤ 0x25#8 ↔ v.toNat ≤ 0x25 := BitVec.le_def
  simp only [isServiceVector, Bool.and_eq_false_iff, decide_eq_false_iff_not, hlo, hhi, not_le]

theorem ne_of_isServiceVector {u v : Byte} (hv : isServiceVector v = false) (hu : isServiceVector u = true) :
    v ≠ u :=
  fun h => by simp [← h, hv] at hu

/-- A vector is unknown or one of R99's six. -/
theorem vector_cases (v : Byte) :
    isServiceVector v = false ∨
      v = 0x20#8 ∨ v = 0x21#8 ∨ v = 0x22#8 ∨ v = 0x23#8 ∨ v = 0x24#8 ∨ v = 0x25#8 := by
  rw [isServiceVector_eq_false_iff]
  bv_omega

/-- An unknown vector selects the row of TRAP itself. -/
theorem decodeTrap_of_unknown {v : Byte} (h : isServiceVector v = false) : decodeTrap v = .trap v := by
  have hne {u : Byte} (hu : isServiceVector u = true) : v ≠ u := ne_of_isServiceVector h hu
  rw [decodeTrap, if_neg (hne rfl), if_neg (hne rfl), if_neg (hne rfl), if_neg (hne rfl), if_neg (hne rfl),
    if_neg (hne rfl)]

namespace Machine

/-- R209: the dispatch of an unknown vector changes nothing. -/
theorem trapDispatch_of_unknown {v : Byte} (h : isServiceVector v = false) (cfg : Config) (s : State) :
    trapDispatch cfg v s = s := by
  have hne {u : Byte} (hu : isServiceVector u = true) : v ≠ u := ne_of_isServiceVector h hu
  rw [trapDispatch, if_neg (hne rfl), if_neg (hne rfl), if_neg (hne rfl), if_neg (hne rfl), if_neg (hne rfl),
    if_neg (hne rfl)]

theorem exec_trap (v : Byte) (s : State) : exec (.trap v) s = .next (trapDispatch Config.block v s) := rfl

/-- R209: TRAP with an unknown vector is a no-op. -/
theorem exec_trap_of_unknown {v : Byte} (h : isServiceVector v = false) (s : State) :
    exec (.trap v) s = .next s := by
  rw [exec_trap, trapDispatch_of_unknown h]

/-- R200: the dispatch on the vector runs the service that the vector's row runs. -/
theorem exec_decodeTrap (v : Byte) (s : State) : exec (decodeTrap v) s = exec (.trap v) s := by
  obtain h | rfl | rfl | rfl | rfl | rfl | rfl := vector_cases v
  · rw [decodeTrap_of_unknown h]
  all_goals rfl

end Machine

end Sys2Proof

open Sys2Proof Sys2Proof.Machine

/-- Settles O40: opcode 0xF is the decoder's last case, and an unknown vector differs from each of the six that
the decoder and the dispatch compare it with. -/
theorem trapVectorSelectsTheService : Obligations.TrapVectorSelectsTheService := by
  unfold Obligations.TrapVectorSelectsTheService
  refine ⟨fun _ hw => decode_of_opcode_trap hw, rfl, rfl, rfl, rfl, rfl, rfl, fun v hv => ?_, fun v s =>
    (exec_decodeTrap v s).symm⟩
  have h : isServiceVector v = false := isServiceVector_eq_false_iff.mpr hv
  exact ⟨decodeTrap_of_unknown h, exec_trap_of_unknown h⟩

end

section
/-! PROOFS. The reserved opcodes (40_control_unit.md R126). -/

namespace Sys2Proof

theorem decode_of_opcode_res8 {w : Word} (h : fieldOpcode w = 0x8#4) : decode w = .res8 := by
  simp [decode, h]

theorem decode_of_opcode_res13 {w : Word} (h : fieldOpcode w = 0xD#4) : decode w = .res13 := by
  simp [decode, h]

namespace Machine

theorem exec_res8 (s : State) : exec .res8 s = .next s := rfl

theorem exec_res13 (s : State) : exec .res13 s = .next s := rfl

/-- R120 with no relay action to come: a running block drains, fetches, and executes the decoded word. -/
theorem step_of_running {s : State} (ha : s.activity = .betweenCycles) (hrun : s.running = true)
    (hrelay : s.relay = []) : step s = exec (decode s.drain.fetch.ir) s.drain.fetch := by
  rw [step_eq, ha]
  simp only [State.drainFetch, relayPoint_of_nil hrelay, hrun, if_true]

/-- Either reserved opcode is a no-op as it is dispatched. -/
theorem exec_decode_of_reserved {w : Word} (h : fieldOpcode w = 0x8#4 ∨ fieldOpcode w = 0xD#4) (s : State) :
    exec (decode w) s = .next s := by
  obtain h8 | h13 := h
  · rw [decode_of_opcode_res8 h8, exec_res8]
  · rw [decode_of_opcode_res13 h13, exec_res13]

end Machine

end Sys2Proof

open Sys2Proof Sys2Proof.Machine

/-- Settles O39: the decoder looks at bits 15:12 alone for the two opcodes, both arms answer the state they are
given, and a step of a running block is the decoded word executed at `s.drain.fetch`. -/
theorem reservedOpcodesDoNothing : Obligations.ReservedOpcodesDoNothing := by
  unfold Obligations.ReservedOpcodesDoNothing
  refine ⟨fun _ hw => decode_of_opcode_res8 hw, fun _ hw => decode_of_opcode_res13 hw, exec_res8, exec_res13,
    fun s ha hrun hrelay hop => ⟨?_, ?_⟩⟩
  · rw [step_of_running ha hrun hrelay, exec_decode_of_reserved hop]
  · rw [fetch_pc, drain_pc]

end

section
/-! PROOFS. The operate instructions: the condition code, ADD and NOT (41_operate.md R140, R141 and R143). -/

namespace Sys2Proof

/-- R141: bit 5 selects the form of ADD. -/
theorem decode_of_opcode_add {w : Word} (h : fieldOpcode w = 0x1#4) :
    decode w = if w.getLsbD 5 then .addImm (fieldDR w) (fieldSR1 w) (fieldImm5 w)
      else .addReg (fieldDR w) (fieldSR1 w) (fieldSR2 w) := by
  simp [decode, h]

theorem decode_of_opcode_not {w : Word} (h : fieldOpcode w = 0x9#4) :
    decode w = .not (fieldDR w) (fieldSR1 w) := by
  simp [decode, h]

namespace Machine

theorem getLsbD_fifteen (v : Word) : v.getLsbD 15 = decide (0x8000 ≤ v.toNat) := by
  rw [← BitVec.msb_eq_getLsbD_last, BitVec.msb_eq_decide]

/-- R140 by the value as a number. -/
theorem ccOf_eq (v : Word) : ccOf v = if v = 0 then .z else if 0x8000 ≤ v.toNat then .n else .p := by
  simp only [ccOf, getLsbD_fifteen, decide_eq_true_eq]

theorem ccOf_zero : ccOf 0 = .z := rfl

theorem ccOf_of_negative {v : Word} (h : 0x8000 ≤ v.toNat) : ccOf v = .n := by
  have hne : v ≠ 0 := by rintro rfl; exact absurd h (by decide)
  rw [ccOf_eq, if_neg hne, if_pos h]

theorem ccOf_of_positive {v : Word} (hpos : 0 < v.toNat) (h : v.toNat < 0x8000) : ccOf v = .p := by
  have hne : v ≠ 0 := by rintro rfl; exact absurd hpos (by decide)
  rw [ccOf_eq, if_neg hne, if_neg (by omega)]

/-- The complement is zero when the input is all ones, and negative when the input is not. -/
theorem ccOf_not (v : Word) : ccOf (~~~v) = if v = 0xFFFF then .z else if v.toNat < 0x8000 then .n else .p := by
  have hzero : ~~~v = 0 ↔ v = 0xFFFF := by bv_omega
  have hneg : 0x8000 ≤ (~~~v).toNat ↔ v.toNat < 0x8000 := by rw [BitVec.toNat_not]; omega
  simp only [ccOf_eq, hzero, hneg]

/-- The flags of a written result, read back from its register. -/
theorem setResult_cc_eq (s : State) (dr : RegIdx) (v : Word) :
    (s.setResult dr v).cc = if (s.setResult dr v).getReg dr = 0 then .z
      else if 0x8000 ≤ ((s.setResult dr v).getReg dr).toNat then .n else .p := by
  rw [State.setResult_cc, State.getReg_setResult, State.getReg_setReg_self, if_pos rfl, ccOf_eq]

/-- R27: the write of a result leaves every other register. -/
theorem getReg_setResult_of_ne {r dr : RegIdx} (h : r ≠ dr) (s : State) (v : Word) :
    (s.setResult dr v).getReg r = s.getReg r := by
  rw [State.getReg_setResult, if_neg h.symm]

/-- R27: the write of a result changes the registers and cc alone. -/
theorem setResult_frame (s : State) (dr : RegIdx) (v : Word) :
    s.setResult dr v = { s with regs := (s.setResult dr v).regs, cc := (s.setResult dr v).cc } := rfl

theorem exec_addReg (dr sr1 sr2 : RegIdx) (s : State) :
    exec (.addReg dr sr1 sr2) s = .next (s.setResult dr (s.getReg sr1 + s.getReg sr2)) := rfl

theorem exec_addImm (dr sr1 : RegIdx) (imm : BitVec 5) (s : State) :
    exec (.addImm dr sr1 imm) s = .next (s.setResult dr (s.getReg sr1 + sext imm)) := rfl

theorem exec_not (dr sr : RegIdx) (s : State) :
    exec (.not dr sr) s = .next (s.setResult dr (~~~s.getReg sr)) := rfl

/-- A sum written as a result is the sum of its two operands mod 2^16. -/
theorem getReg_setResult_add_toNat (s : State) (dr : RegIdx) (a b : Word) :
    ((s.setResult dr (a + b)).getReg dr).toNat = (a.toNat + b.toNat) % 65536 := by
  rw [State.getReg_setResult, if_pos rfl, BitVec.toNat_add]

/-- A complement written as a result is the operand taken from 0xFFFF. -/
theorem getReg_setResult_not_toNat (s : State) (dr : RegIdx) (a : Word) :
    ((s.setResult dr (~~~a)).getReg dr).toNat = 0xFFFF - a.toNat := by
  rw [State.getReg_setResult, if_pos rfl, BitVec.toNat_not]

end Machine

end Sys2Proof

open Sys2Proof Sys2Proof.Machine

/-- Settles O22: cc becomes that of the register's value, whose bit 15 says whether it is 0x8000 or above. -/
theorem setFlagsClassifiesTheRegister : Obligations.SetFlagsClassifiesTheRegister := by
  unfold Obligations.SetFlagsClassifiesTheRegister
  intro s i
  rw [State.setFlags_cc]
  exact ⟨fun h => h ▸ ccOf_zero, ccOf_of_negative, ccOf_of_positive, rfl⟩

/-- Settles O23: both forms write one result, computed from the operands as they were before. -/
theorem addWritesTheSumAndItsFlags : Obligations.AddWritesTheSumAndItsFlags := by
  unfold Obligations.AddWritesTheSumAndItsFlags
  refine ⟨fun _ hw => decode_of_opcode_add hw, fun dr sr1 sr2 s => ?_, fun dr sr1 imm s => ?_⟩
  · exact ⟨_, exec_addReg dr sr1 sr2 s, getReg_setResult_add_toNat .., setResult_cc_eq ..,
      fun _ hr => getReg_setResult_of_ne hr .., setResult_frame ..⟩
  · exact ⟨_, exec_addImm dr sr1 imm s, getReg_setResult_add_toNat .., setResult_cc_eq ..,
      fun _ hr => getReg_setResult_of_ne hr .., setResult_frame ..⟩

/-- Settles O25: NOT writes the complement as its result, so its flags are the complement's. -/
theorem notWritesTheComplementAndItsFlags : Obligations.NotWritesTheComplementAndItsFlags := by
  unfold Obligations.NotWritesTheComplementAndItsFlags
  refine ⟨fun _ hw => decode_of_opcode_not hw, fun dr sr s => ⟨_, exec_not dr sr s,
    getReg_setResult_not_toNat .., ?_, fun _ hr => getReg_setResult_of_ne hr .., setResult_frame ..⟩⟩
  rw [State.setResult_cc_of, ccOf_not]

end

section
/-! PROOFS. Data movement: the stores, the loads and LEA (42_data_movement.md R160 to R166). -/

namespace Sys2Proof

/-! ### The words -/

theorem decode_of_opcode_ld {w : Word} (h : fieldOpcode w = 0x2#4) : decode w = .ld (fieldDR w) (fieldOff9 w) := by
  simp [decode, h]

theorem decode_of_opcode_st {w : Word} (h : fieldOpcode w = 0x3#4) : decode w = .st (fieldDR w) (fieldOff9 w) := by
  simp [decode, h]

theorem decode_of_opcode_ldr {w : Word} (h : fieldOpcode w = 0x6#4) :
    decode w = .ldr (fieldDR w) (fieldSR1 w) (fieldOff6 w) := by
  simp [decode, h]

theorem decode_of_opcode_str {w : Word} (h : fieldOpcode w = 0x7#4) :
    decode w = .str (fieldDR w) (fieldSR1 w) (fieldOff6 w) := by
  simp [decode, h]

theorem decode_of_opcode_ldi {w : Word} (h : fieldOpcode w = 0xA#4) : decode w = .ldi (fieldDR w) (fieldOff9 w) := by
  simp [decode, h]

theorem decode_of_opcode_sti {w : Word} (h : fieldOpcode w = 0xB#4) : decode w = .sti (fieldDR w) (fieldOff9 w) := by
  simp [decode, h]

theorem decode_of_opcode_lea {w : Word} (h : fieldOpcode w = 0xE#4) : decode w = .lea (fieldDR w) (fieldOff9 w) := by
  simp [decode, h]

namespace Machine

/-! ### Reads, plain stores and loaded results -/

/-- R60: with no relay action to come, the block's read is `MemRead`. -/
theorem blockRead_of_relay_nil {s : State} (h : s.relay = []) (a : Word) : s.blockRead a = s.memRead a := by
  rw [State.blockRead, relayPoint_of_nil h, ite_self]

@[simp] theorem memRead_relay (s : State) (a : Word) : (s.memRead a).2.relay = s.relay := by rw [memRead_eq]

/-- R58: a store is read back from its own cell. -/
theorem cell_memWrite_self {s : State} (hs : s.mem.wf = true) (a v : Word) : (s.memWrite a v).cell a = v := by
  rw [State.memWrite, State.cell_setCell hs, if_pos rfl]

/-- R58: a store leaves every other cell, whatever its own address. -/
theorem cell_memWrite_of_ne {s : State} (hs : s.mem.wf = true) {a b : Word} (h : b ≠ a) (v : Word) :
    (s.memWrite a v).cell b = s.cell b := by
  rw [State.memWrite, State.cell_setCell hs, if_neg h.symm]

/-- R58 over all of memory, at an address `ea` however it was computed. -/
theorem memWrite_cells {s : State} (hs : s.mem.wf = true) {ea a : Word} (hea : ea = a) (v : Word) :
    (s.memWrite a v).cell ea = v ∧ ∀ b : Word, b ≠ ea → (s.memWrite a v).cell b = s.cell b := by
  subst hea
  exact ⟨cell_memWrite_self hs .., fun _ hb => cell_memWrite_of_ne hs hb _⟩

/-- R58: a store changes memory alone. -/
theorem memWrite_frame (s : State) (a v : Word) : s.memWrite a v = { s with mem := (s.memWrite a v).mem } := rfl

theorem getReg_setResult_self (s : State) (dr : RegIdx) (v : Word) : (s.setResult dr v).getReg dr = v := by
  rw [State.getReg_setResult, if_pos rfl]

theorem getReg_loadInto_self (s : State) (dr : RegIdx) (ea : Word) :
    (s.loadInto dr ea).getReg dr = (s.blockRead ea).1 :=
  getReg_setResult_self ..

theorem getReg_loadInto_of_ne {r dr : RegIdx} (h : r ≠ dr) (s : State) (ea : Word) :
    (s.loadInto dr ea).getReg r = s.getReg r :=
  (getReg_setResult_of_ne h ..).trans (blockRead_getReg ..)

/-- R140: a load's flags are those of the loaded register. -/
theorem loadInto_cc (s : State) (dr : RegIdx) (ea : Word) :
    (s.loadInto dr ea).cc = ccOf ((s.loadInto dr ea).getReg dr) := by
  rw [getReg_loadInto_self]
  exact State.setResult_cc_of ..

/-- After its read a load changes the registers and cc alone. -/
theorem loadInto_frame (s : State) (dr : RegIdx) (ea : Word) :
    s.loadInto dr ea =
      { (s.blockRead ea).2 with regs := (s.loadInto dr ea).regs, cc := (s.loadInto dr ea).cc } := rfl

/-- R59: a load from an ordinary address is the write of the cell as a result. -/
theorem loadInto_of_ordinary {s : State} {ea : Word} (h1 : ea ≠ kbsr) (h2 : ea ≠ kbdr) (dr : RegIdx) :
    s.loadInto dr ea = s.setResult dr (s.cell ea) := by
  rw [State.loadInto, blockRead_ordinary h1 h2]

/-! ### The instructions, with the addresses of R159 written out -/

theorem exec_st (sr : RegIdx) (off : BitVec 9) (s : State) :
    exec (.st sr off) s = .next (s.memWrite (s.pc + off.signExtend 16) (s.getReg sr)) := rfl

theorem exec_str (sr base : RegIdx) (off : BitVec 6) (s : State) :
    exec (.str sr base off) s = .next (s.memWrite (s.getReg base + off.signExtend 16) (s.getReg sr)) := rfl

theorem exec_ld (dr : RegIdx) (off : BitVec 9) (s : State) :
    exec (.ld dr off) s = .next (s.loadInto dr (s.pc + off.signExtend 16)) := rfl

theorem exec_ldr (dr base : RegIdx) (off : BitVec 6) (s : State) :
    exec (.ldr dr base off) s = .next (s.loadInto dr (s.getReg base + off.signExtend 16)) := rfl

theorem exec_lea (dr : RegIdx) (off : BitVec 9) (s : State) :
    exec (.lea dr off) s = .next (s.setResult dr (s.pc + off.signExtend 16)) := rfl

theorem exec_ldi (dr : RegIdx) (off : BitVec 9) (s : State) :
    exec (.ldi dr off) s = .next ((s.blockRead (s.pc + off.signExtend 16)).2.loadInto dr
      (s.blockRead (s.pc + off.signExtend 16)).1) := rfl

/-- R165: the pointer read leaves SR as it was. -/
theorem exec_sti (sr : RegIdx) (off : BitVec 9) (s : State) :
    exec (.sti sr off) s = .next ((s.blockRead (s.pc + off.signExtend 16)).2.memWrite
      (s.blockRead (s.pc + off.signExtend 16)).1 (s.getReg sr)) := by
  rw [← blockRead_getReg s (s.pc + off.signExtend 16) sr]
  rfl

/-- R161: LDI's second read is made in the state the first left; neither touches a register. -/
theorem ldi_loads {off : BitVec 9} {s s1 s2 : State} {p v : Word}
    (hp : s.blockRead (s.pc + off.signExtend 16) = (p, s1)) (hv : s1.blockRead p = (v, s2)) (dr : RegIdx) :
    ∃ t, exec (.ldi dr off) s = .next t ∧ t.getReg dr = v ∧ t.cc = ccOf v ∧
      (∀ r, r ≠ dr → t.getReg r = s.getReg r) ∧ t = { s2 with regs := t.regs, cc := t.cc } := by
  obtain ⟨rfl, rfl⟩ := Prod.ext_iff.mp hp
  obtain ⟨rfl, rfl⟩ := Prod.ext_iff.mp hv
  exact ⟨_, exec_ldi dr off s, getReg_loadInto_self .., State.setResult_cc_of ..,
    fun r hr => (getReg_loadInto_of_ne hr ..).trans (blockRead_getReg ..), loadInto_frame ..⟩

/-- R165: the pointer read keeps memory canonical and changes the two device cells at most; the store is plain. -/
theorem sti_stores {off : BitVec 9} {s s1 : State} {p : Word} (hs : s.mem.wf = true)
    (hp : s.blockRead (s.pc + off.signExtend 16) = (p, s1)) (sr : RegIdx) :
    ∃ t, exec (.sti sr off) s = .next t ∧ t.cell p = s.getReg sr ∧
      (∀ a : Word, a ≠ p → t.cell a = s1.cell a) ∧ t = { s1 with mem := t.mem } ∧
      (∀ a : Word, a ≠ p → a ≠ 0xFE00 → a ≠ 0xFE02 → t.cell a = s.cell a) ∧
      t.regs = s.regs ∧ t.cc = s.cc ∧ t.pc = s.pc ∧ t.output = s.output := by
  obtain ⟨rfl, rfl⟩ := Prod.ext_iff.mp hp
  have hwf := blockRead_wf hs (s.pc + off.signExtend 16)
  exact ⟨_, exec_sti sr off s, cell_memWrite_self hwf .., fun _ ha => cell_memWrite_of_ne hwf ha _,
    memWrite_frame .., fun _ ha h1 h2 => (cell_memWrite_of_ne hwf ha _).trans (blockRead_cell hs _ h1 h2),
    blockRead_regs .., blockRead_cc .., blockRead_pc .., blockRead_output ..⟩

end Machine

end Sys2Proof

open Sys2Proof Sys2Proof.Machine

/-- Settles O30: each is one plain store of SR, and the address is computed before it. -/
theorem stAndStrStoreAtTheComputedAddress : Obligations.StAndStrStoreAtTheComputedAddress := by
  unfold Obligations.StAndStrStoreAtTheComputedAddress
  refine ⟨fun _ hw => decode_of_opcode_st hw, fun _ hw => decode_of_opcode_str hw, fun sr off s hs => ?_,
    fun sr base off s hs => ?_⟩
  · exact ⟨_, exec_st sr off s, fun _ hea => memWrite_cells hs hea _, memWrite_frame ..⟩
  · exact ⟨_, exec_str sr base off s, fun _ hea => memWrite_cells hs hea _, memWrite_frame ..⟩

/-- Settles O31: a plain store in the state the pointer read left. -/
theorem stiStoresThroughThePointer : Obligations.StiStoresThroughThePointer := by
  unfold Obligations.StiStoresThroughThePointer
  refine ⟨fun _ hw => decode_of_opcode_sti hw, fun sr off s s1 p hs hp => sti_stores hs hp sr,
    fun sr off s s1 p hs hrelay hp => ?_⟩
  rw [← blockRead_of_relay_nil hrelay] at hp
  obtain ⟨t, hexec, hcell, hothers, hframe, -⟩ := sti_stores hs hp sr
  exact ⟨t, hexec, hcell, hothers, hframe⟩

/-- Settles O26: LD is a load into DR; what its read does to the state is the block's read, `MemRead` or nothing,
by the case. -/
theorem ldLoadsFromThePcRelativeAddress : Obligations.LdLoadsFromThePcRelativeAddress := by
  unfold Obligations.LdLoadsFromThePcRelativeAddress
  refine ⟨fun _ hw => decode_of_opcode_ld hw, fun dr off s => ?_, fun dr off s hrelay => ?_,
    fun dr off s h1 h2 => ?_⟩
  · exact ⟨_, exec_ld dr off s, getReg_loadInto_self .., loadInto_cc ..,
      fun _ hr => getReg_loadInto_of_ne hr .., loadInto_frame ..⟩
  · rw [← blockRead_of_relay_nil hrelay]
    exact ⟨_, exec_ld dr off s, getReg_loadInto_self .., loadInto_frame ..⟩
  · rw [exec_ld, loadInto_of_ordinary h1 h2]
    exact ⟨_, rfl, getReg_setResult_self .., setResult_frame ..⟩

/-- Settles O27: with no relay action to come before the first read, which adds none, there is none before the
second either, so both are `MemRead`. -/
theorem ldiLoadsThroughThePointer : Obligations.LdiLoadsThroughThePointer := by
  unfold Obligations.LdiLoadsThroughThePointer
  refine ⟨fun _ hw => decode_of_opcode_ldi hw, fun dr off s s1 s2 p v hp hv => ldi_loads hp hv dr,
    fun dr off s s1 s2 p v hrelay hp hv => ?_⟩
  have hrelay1 : s1.relay = [] := by simpa [hp, hrelay] using memRead_relay s (s.pc + off.signExtend 16)
  rw [← blockRead_of_relay_nil hrelay] at hp
  rw [← blockRead_of_relay_nil hrelay1] at hv
  exact ldi_loads hp hv dr

/-- Settles O28: LDR is a load into DR, the address computed from the base as it was before. -/
theorem ldrLoadsFromTheBaseAddress : Obligations.LdrLoadsFromTheBaseAddress := by
  unfold Obligations.LdrLoadsFromTheBaseAddress
  refine ⟨fun _ hw => decode_of_opcode_ldr hw, fun dr base off s => ?_, fun dr base off s hrelay => ?_⟩
  · exact ⟨_, exec_ldr dr base off s, getReg_loadInto_self .., loadInto_cc ..,
      fun _ hr => getReg_loadInto_of_ne hr .., loadInto_frame ..⟩
  · rw [← blockRead_of_relay_nil hrelay]
    exact ⟨_, exec_ldr dr base off s, getReg_loadInto_self .., loadInto_frame ..⟩

/-- Settles O29: LEA writes the address itself as its result, with no read. -/
theorem leaWritesTheAddress : Obligations.LeaWritesTheAddress := by
  unfold Obligations.LeaWritesTheAddress
  exact ⟨fun _ hw => decode_of_opcode_lea hw, fun dr off s => ⟨_, exec_lea dr off s, getReg_setResult_self ..,
    setResult_cc_eq .., fun _ hr => getReg_setResult_of_ne hr .., setResult_frame ..⟩⟩

end

section
/-! PROOFS. Control transfer: JMP and RET (43_control_transfer.md R181). -/

namespace Sys2Proof

/-- R181: BaseR alone selects the row of opcode 0xC. -/
theorem decode_of_opcode_jmp {w : Word} (h : fieldOpcode w = 0xC#4) : decode w = decodeJmp (fieldSR1 w) := by
  simp [decode, h]

namespace Machine

theorem exec_jmp (base : RegIdx) (s : State) : exec (.jmp base) s = .next (s.setPc (s.getReg base)) := rfl

/-- R181: RET is the jump to R7, with no behaviour of its own. -/
theorem exec_ret (s : State) : exec .ret s = .next (s.setPc (s.getReg 7)) := rfl

end Machine

end Sys2Proof

open Sys2Proof Sys2Proof.Machine

/-- Settles O35: the decoder tells RET from JMP by BaseR alone, and each sets pc to its base register's value. -/
theorem jumpGoesToTheBaseRegister : Obligations.JumpGoesToTheBaseRegister := by
  unfold Obligations.JumpGoesToTheBaseRegister
  exact ⟨fun _ hw => decode_of_opcode_jmp hw, exec_jmp, exec_ret⟩

end

section
/-! PROOFS. HALT (44_trap.md R208). -/

namespace Sys2Proof.Machine

/-- R208: HALT clears `running` and changes nothing else. -/
theorem exec_trapHalt (s : State) : exec .trapHalt s = .next { s with running := false } := rfl

/-- R121 with no relay action to come: the halt check of a block that is not running ends the run. -/
theorem step_of_not_running {s : State} (ha : s.activity = .betweenCycles) (hrun : s.running = false)
    (hrelay : s.relay = []) : step s = .next { s with activity := .runOver } := by
  rw [step_eq, ha]
  simp only [relayPoint_of_nil hrelay, hrun, Bool.false_eq_true, if_false]

end Sys2Proof.Machine

open Sys2Proof Sys2Proof.Machine

/-- Settles O48: HALT keeps the activity and the relay's actions, so the state it answers meets the halt check with
`running` false. -/
theorem haltClearsRunningAndEndsTheRun : Obligations.HaltClearsRunningAndEndsTheRun := by
  unfold Obligations.HaltClearsRunningAndEndsTheRun
  refine ⟨rfl, exec_trapHalt, fun s t ha hrelay ht => ?_⟩
  rw [exec_trapHalt] at ht
  cases ht
  exact step_of_not_running ha rfl hrelay

end

section
/-! PROOFS. What every step keeps: the output's growth (20_memory.md R72), the order of the keys (10_state.md R30),
canonical memory, and the word of `activity`. -/

namespace Sys2Proof.Machine

/-! ### Properties kept by every operation -/

/-- The output surface is only ever appended to. -/
theorem opStable_output (l : List Word) : OpStable fun s => l <+: s.output where
  setReg _ _ _ h := h
  setFlags _ _ h := h
  setPc _ _ h := h
  read := (stable_output l).read
  write _ _ _ h := h
  emit := (stable_output l).emit
  turn _ _ h := h
  stop _ h := h
  relay s e rest _ h := by cases e <;> exact h
  pop _ _ _ _ h := h

/-- One action of the relay leaves Q and the keys still to come the same sequence. -/
theorem relayAct_pending {s : State} {e : RelayEvent} {rest : List RelayEvent} (h : s.relay = e :: rest) :
    (s.relayAct rest e).pendingKeys = s.pendingKeys := by
  cases e <;> simp [State.relayAct, State.pendingKeys, h, comingKeys]

/-- A pop takes the first of the pending keys. -/
theorem pop_pending {s : State} {c : Word} {rest : List Word} (h : s.queue = c :: rest) :
    ({ s with queue := rest } : State).pendingKeys <:+ s.pendingKeys :=
  ⟨[c], by simp [State.pendingKeys, h]⟩

/-- The pending keys lose their first ones at most. -/
theorem opStable_keys (l : List Word) : OpStable fun s => s.pendingKeys <:+ l where
  setReg _ _ _ h := h
  setFlags _ _ h := h
  setPc _ _ h := h
  read := (stable_keys l).read
  write _ _ _ h := h
  emit _ _ h := h
  turn _ _ h := h
  stop _ h := h
  relay _ _ _ he h := relayAct_pending he ▸ h
  pop _ _ _ hq h := (pop_pending hq).trans h

/-- Memory stays canonical. -/
theorem opStable_wf : OpStable fun s => s.mem.wf = true where
  setReg _ _ _ h := h
  setFlags _ _ h := h
  setPc _ _ h := h
  read := stable_wf.read
  write s a v h := State.wf_setCell h a v
  emit _ _ h := h
  turn _ _ h := h
  stop _ h := h
  relay s e rest _ h := by cases e <;> exact h
  pop _ _ _ _ h := h

theorem step_output {s t : State} (h : step s = .next t) : s.output <+: t.output :=
  (opStable_output s.output).step (fun u hu => by rwa [drain_output]) (fun _ _ hu => hu) h List.prefix_rfl

theorem step_pendingKeys {s t : State} (h : step s = .next t) : t.pendingKeys <:+ s.pendingKeys :=
  (opStable_keys s.pendingKeys).step (fun u hu => (drain_pending u).trans hu) (fun _ _ hu => hu) h List.suffix_rfl

theorem step_wf {s t : State} (h : step s = .next t) (hs : s.mem.wf = true) : t.mem.wf = true :=
  opStable_wf.step (fun _ => drain_wf) (fun _ _ h => h) h hs

/-! ### The word of `activity` -/

theorem activityOk_of_betweenCycles {s : State} (h : s.activity = .betweenCycles) : s.activityOk = true := by
  simp [State.activityOk, h]

theorem activityOk_runOver_iff {s : State} (h : s.activity = .runOver) : s.activityOk = true ↔ s.running = false := by
  simp [State.activityOk, h]

/-- What a held wait promises. -/
theorem activityOk_of_wait {s : State} (h : s.activity = .waitGetc ∨ s.activity = .waitIn) (hrun : s.running = true)
    (hq : s.queue = []) (hr : s.relay = []) : s.activityOk = true := by
  rcases h with h | h <;> simp [State.activityOk, h, hrun, hq, hr]

/-- GETC holds only on an empty Q with `running` true and no relay action left. -/
theorem getcEnd_activityOk {l : List RelayEvent} {s : State} (hl : s.relay = l) :
    (getcEnd (awaitKey l s)).activityOk = true := by
  obtain ⟨u, -, -, -, ⟨c, rest, -, -, h⟩ | ⟨-, h⟩ | ⟨hrun, hq, hr, h⟩⟩ := getcEnd_cases hl <;> rw [h]
  · exact activityOk_of_betweenCycles rfl
  · exact activityOk_of_betweenCycles rfl
  · exact activityOk_of_wait (.inl rfl) hrun hq hr

/-- IN holds as GETC does. -/
theorem inEnd_activityOk {l : List RelayEvent} {s : State} (hl : s.relay = l) :
    (inEnd (awaitKey l s)).activityOk = true := by
  obtain ⟨u, -, -, -, ⟨c, rest, -, -, h⟩ | ⟨-, h⟩ | ⟨hrun, hq, hr, h⟩⟩ := inEnd_cases hl <;> rw [h]
  · exact activityOk_of_betweenCycles rfl
  · exact activityOk_of_betweenCycles rfl
  · exact activityOk_of_wait (.inr rfl) hrun hq hr

theorem getcResume_activityOk (s : State) : (getcResume s).activityOk = true := by
  obtain ⟨c, rest, -, h⟩ | ⟨-, h⟩ := getcResume_cases s <;> rw [h]
  · exact activityOk_of_betweenCycles rfl
  · exact getcEnd_activityOk rfl

theorem inResume_activityOk (s : State) : (inResume s).activityOk = true := by
  obtain ⟨c, rest, -, h⟩ | ⟨-, h⟩ := inResume_cases s <;> rw [h]
  · exact activityOk_of_betweenCycles rfl
  · exact inEnd_activityOk rfl

theorem inService_block_activityOk (s : State) : (inService Config.block s).activityOk = true := by
  rw [inService_block]
  exact inEnd_activityOk rfl

theorem putsLoop_activityOk (n : Nat) (a : Word) (s : State) : (putsLoop n a s).activityOk = true := by
  obtain h | ⟨b, h⟩ := putsLoop_activity n a s
  · exact activityOk_of_betweenCycles h
  · simp [State.activityOk, h]

theorem putspLoop_activityOk (n : Nat) (a : Word) (s : State) : (putspLoop n a s).activityOk = true := by
  obtain h | ⟨b, h⟩ := putspLoop_activity n a s
  · exact activityOk_of_betweenCycles h
  · simp [State.activityOk, h]

theorem putspService_block_activityOk (s : State) : (putspService Config.block s).activityOk = true := by
  rw [putspService_block]
  exact putspLoop_activityOk ..

/-- TRAP with any vector leaves `activity` true to its word. -/
theorem trapDispatch_activityOk (v : Byte) {s : State} (hs : s.activity = .betweenCycles) :
    (trapDispatch Config.block v s).activityOk = true := by
  unfold trapDispatch
  split
  · exact getcEnd_activityOk rfl
  split
  · exact activityOk_of_betweenCycles hs
  split
  · exact putsLoop_activityOk ..
  split
  · exact inService_block_activityOk s
  split
  · exact putspService_block_activityOk s
  split
  · exact activityOk_of_betweenCycles hs
  · exact activityOk_of_betweenCycles hs

/-- An instruction begun between two cycles leaves `activity` true to its word: only the waits and the strings
write it. -/
theorem exec_activityOk {i : Instr} {s t : State} (h : exec i s = .next t) (hs : s.activity = .betweenCycles) :
    t.activityOk = true := by
  cases i with
  | trapGetc => cases h; exact getcEnd_activityOk rfl
  | trapIn => cases h; exact inService_block_activityOk s
  | trapPuts => cases h; exact putsLoop_activityOk ..
  | trapPutsp => cases h; exact putspService_block_activityOk s
  | trap v => cases h; exact trapDispatch_activityOk v hs
  | br mask off =>
    cases h
    refine activityOk_of_betweenCycles ?_
    split <;> exact hs
  | ld | ldr | sti => cases h; exact activityOk_of_betweenCycles ((blockRead_activity ..).trans hs)
  | ldi =>
    cases h
    exact activityOk_of_betweenCycles ((blockRead_activity ..).trans ((blockRead_activity ..).trans hs))
  | _ => cases h; exact activityOk_of_betweenCycles hs

/-- From any state whose `activity` is true to its word, so is the next. -/
theorem step_activityOk {s t : State} (h : step s = .next t) (hs : s.activityOk = true) : t.activityOk = true := by
  rw [step_eq] at h
  cases ha : s.activity <;> rw [ha] at h
  case betweenCycles =>
    dsimp only at h
    split at h
    · exact exec_activityOk h ((drainFetch_activity _).trans ((relayPoint_activity s).trans ha))
    · next hrun => cases h; exact (activityOk_runOver_iff rfl).mpr (by simpa using hrun)
  case waitGetc => cases h; exact getcResume_activityOk s
  case waitIn => cases h; exact inResume_activityOk s
  case puts a => cases h; exact putsLoop_activityOk ..
  case putsp a => cases h; exact putspLoop_activityOk ..
  case runOver => cases h; exact hs

/-! ### Every instruction and step answers -/

theorem exec_answers (i : Instr) (s : State) : ∃ t, exec i s = .next t := by
  cases i <;> exact ⟨_, rfl⟩

theorem step_answers (s : State) : ∃ t, step s = .next t := by
  rw [step_eq]
  cases s.activity <;> dsimp only
  case betweenCycles =>
    split
    · exact exec_answers ..
    · exact ⟨_, rfl⟩
  all_goals exact ⟨_, rfl⟩

theorem resetWith_inv (cfg : Config) : (State.resetWith cfg).Inv :=
  ⟨State.wf_resetWith cfg, activityOk_of_betweenCycles rfl⟩

end Sys2Proof.Machine

open Sys2Proof Sys2Proof.Machine

/-- Settles O12: canonical memory is kept by every operation; `activity` is written by the services, their going on
and the halt check alone, each true to its word. -/
theorem stepKeepsTheInvariant : Obligations.StepKeepsTheInvariant := by
  unfold Obligations.StepKeepsTheInvariant
  exact fun _ _ ⟨hwf, hact⟩ h => ⟨step_wf h hwf, step_activityOk h hact⟩

/-- Settles O14: every operation that a step is built of leaves the output or appends to it. -/
theorem outputOnlyGrows : Obligations.OutputOnlyGrows := by
  unfold Obligations.OutputOnlyGrows
  exact fun _ _ h => step_output h

/-- Settles O15: every operation that a step is built of leaves the pending keys or takes the first of them. -/
theorem keysLeaveInArrivalOrder : Obligations.KeysLeaveInArrivalOrder := by
  unfold Obligations.KeysLeaveInArrivalOrder
  exact fun _ _ h => step_pendingKeys h

/-- Settles O11: each arm of the dispatch answers a next state, and so does each kind of step. -/
theorem everyInstructionAndStepAnswersNext : Obligations.EveryInstructionAndStepAnswersNext := by
  unfold Obligations.EveryInstructionAndStepAnswersNext
  exact ⟨exec_answers, step_answers⟩

/-- Settles O13: reset memory lists no cell, and reset stands between two cycles. -/
theorem resetMeetsTheInvariant : Obligations.ResetMeetsTheInvariant := by
  unfold Obligations.ResetMeetsTheInvariant
  exact ⟨resetWith_inv _, resetWith_inv⟩

end

section
/-! PROOFS. The encoding: a word's read bits are the concatenation of its fields, and the decoder compares them with
what the encoder writes (30_encoding.md R91, R93, R98, R104). -/

namespace Sys2Proof

/-! ### Opcodes -/

theorem decode_of_opcode_br {w : Word} (h : fieldOpcode w = 0x0#4) : decode w = .br (fieldDR w) (fieldOff9 w) := by
  simp [decode, h]

/-- R142: bit 5 selects the form of AND. -/
theorem decode_of_opcode_and {w : Word} (h : fieldOpcode w = 0x5#4) :
    decode w = if w.getLsbD 5 then .andImm (fieldDR w) (fieldSR1 w) (fieldImm5 w)
      else .andReg (fieldDR w) (fieldSR1 w) (fieldSR2 w) := by
  simp [decode, h]

/-- R182, R183: bit 11 selects JSR or JSRR. -/
theorem decode_of_opcode_call {w : Word} (h : fieldOpcode w = 0x4#4) :
    decode w = if w.getLsbD 11 then .jsr (fieldOff11 w) else .jsrr (fieldSR1 w) := by
  simp [decode, h]

theorem opcode_cases (k : BitVec 4) :
    (k = 0x0#4 ∨ k = 0x1#4 ∨ k = 0x2#4 ∨ k = 0x3#4 ∨ k = 0x4#4 ∨ k = 0x5#4 ∨ k = 0x6#4 ∨ k = 0x7#4) ∨
    (k = 0x8#4 ∨ k = 0x9#4 ∨ k = 0xA#4 ∨ k = 0xB#4 ∨ k = 0xC#4 ∨ k = 0xD#4 ∨ k = 0xE#4 ∨ k = 0xF#4) := by
  revert k; decide

/-! ### The formats of R93: the read bits of a word, as its fields and zeros -/

/-- The bit that selects between two forms, as a field. -/
theorem bitField_eq (w : Word) (k : Nat) : w.extractLsb' k 1 = BitVec.ofBool (w.getLsbD k) := by
  refine BitVec.eq_of_getLsbD_eq fun i hi => ?_
  obtain rfl : i = 0 := by omega
  simp

/-- A word under a mask, bit by bit. -/
theorem and_eq_of_bits {w m e : Word} (h : ∀ i : Fin 16, (w.getLsbD i && m.getLsbD i) = e.getLsbD i) : w &&& m = e :=
  word_ext fun i => by rw [BitVec.getLsbD_and, h]

theorem format_pcRel (w : Word) : w &&& 0xFFFF = fieldOpcode w ++ fieldDR w ++ fieldOff9 w :=
  and_eq_of_bits fun i => by repeat rw [BitVec.getLsbD_append]
                             fin_cases i <;> simp

theorem format_base (w : Word) : w &&& 0xFFFF = fieldOpcode w ++ fieldDR w ++ fieldSR1 w ++ fieldOff6 w :=
  and_eq_of_bits fun i => by repeat rw [BitVec.getLsbD_append]
                             fin_cases i <;> simp

theorem format_reg (w : Word) :
    w &&& 0xFFE7 = fieldOpcode w ++ fieldDR w ++ fieldSR1 w ++ (w.extractLsb' 5 1 ++ 0b00#2) ++ fieldSR2 w :=
  and_eq_of_bits fun i => by repeat rw [BitVec.getLsbD_append]
                             fin_cases i <;> simp

theorem format_imm (w : Word) :
    w &&& 0xFFFF = fieldOpcode w ++ fieldDR w ++ fieldSR1 w ++ w.extractLsb' 5 1 ++ fieldImm5 w :=
  and_eq_of_bits fun i => by repeat rw [BitVec.getLsbD_append]
                             fin_cases i <;> simp

theorem format_not (w : Word) : w &&& 0xFFC0 = fieldOpcode w ++ fieldDR w ++ fieldSR1 w ++ 0b000000#6 :=
  and_eq_of_bits fun i => by repeat rw [BitVec.getLsbD_append]
                             fin_cases i <;> simp

theorem format_jsr (w : Word) : w &&& 0xFFFF = fieldOpcode w ++ w.extractLsb' 11 1 ++ fieldOff11 w :=
  and_eq_of_bits fun i => by repeat rw [BitVec.getLsbD_append]
                             fin_cases i <;> simp

theorem format_jsrr (w : Word) :
    w &&& 0xF9C0 = fieldOpcode w ++ (w.extractLsb' 11 1 ++ 0b00#2) ++ fieldSR1 w ++ 0b000000#6 :=
  and_eq_of_bits fun i => by repeat rw [BitVec.getLsbD_append]
                             fin_cases i <;> simp

theorem format_jmp (w : Word) : w &&& 0xF1C0 = fieldOpcode w ++ 0b000#3 ++ fieldSR1 w ++ 0b000000#6 :=
  and_eq_of_bits fun i => by repeat rw [BitVec.getLsbD_append]
                             fin_cases i <;> simp

theorem format_reserved (w : Word) : w &&& 0xF000 = fieldOpcode w ++ 0x000#12 :=
  and_eq_of_bits fun i => by repeat rw [BitVec.getLsbD_append]
                             fin_cases i <;> simp

theorem format_trap (w : Word) : w &&& 0xF0FF = fieldOpcode w ++ 0x0#4 ++ fieldVect w :=
  and_eq_of_bits fun i => by repeat rw [BitVec.getLsbD_append]
                             fin_cases i <;> simp

theorem bit_of_one {w : Word} {k : Nat} (h : w.extractLsb' k 1 = 0b1#1) : w.getLsbD k = true := by
  rw [bitField_eq] at h
  cases hb : w.getLsbD k
  · rw [hb] at h; exact absurd h (by decide)
  · rfl

theorem bit_of_zeros {w : Word} {k : Nat} (h : w.extractLsb' k 1 ++ 0b00#2 = 0b000#3) : w.getLsbD k = false := by
  rw [bitField_eq] at h
  cases hb : w.getLsbD k
  · rfl
  · rw [hb] at h; exact absurd h (by decide)

/-- Fields of the same widths concatenate to the same word only if they are the same. -/
theorem cat_inj {m n : Nat} {x x' : BitVec m} {y y' : BitVec n} : x ++ y = x' ++ y' ↔ x = x' ∧ y = y' := by
  refine ⟨fun h => ⟨?_, ?_⟩, fun ⟨hx, hy⟩ => hx ▸ hy ▸ rfl⟩
  · simpa only [BitVec.extractLsb'_append_eq_left] using congrArg (BitVec.extractLsb' n m) h
  · simpa only [BitVec.extractLsb'_append_eq_right] using congrArg (BitVec.extractLsb' 0 n) h

/-! ### The sub-rows of JMP and TRAP -/

theorem encode_decodeJmp (base : RegIdx) : encode (decodeJmp base) = 0xC#4 ++ 0b000#3 ++ base ++ 0b000000#6 := by
  unfold decodeJmp
  split
  · next h => subst h; rfl
  · rfl

theorem readBits_decodeJmp (base : RegIdx) : (decodeJmp base).readBits = 0xF1C0 := by
  unfold decodeJmp
  split <;> rfl

theorem wellFormed_decodeJmp (base : RegIdx) : (decodeJmp base).wellFormed = true := by
  unfold decodeJmp
  split
  · rfl
  · next h => exact decide_eq_true h

theorem encode_decodeTrap (v : Byte) : encode (decodeTrap v) = 0xF#4 ++ 0x0#4 ++ v := by
  obtain h | rfl | rfl | rfl | rfl | rfl | rfl := vector_cases v
  · rw [decodeTrap_of_unknown h]; rfl
  all_goals rfl

theorem readBits_decodeTrap (v : Byte) : (decodeTrap v).readBits = 0xF0FF := by
  obtain h | rfl | rfl | rfl | rfl | rfl | rfl := vector_cases v
  · rw [decodeTrap_of_unknown h]; rfl
  all_goals rfl

theorem wellFormed_decodeTrap (v : Byte) : (decodeTrap v).wellFormed = true := by
  obtain h | rfl | rfl | rfl | rfl | rfl | rfl := vector_cases v
  · rw [decodeTrap_of_unknown h]; simp [Instr.wellFormed, h]
  all_goals rfl

/-- A word with the read bits of a jump decodes to it. -/
theorem decode_of_read_jmp {w : Word} {base : RegIdx} (h : w &&& 0xF1C0 = encode (decodeJmp base)) :
    decode w = decodeJmp base := by
  rw [format_jmp, encode_decodeJmp, cat_inj, cat_inj, cat_inj] at h
  obtain ⟨⟨⟨hop, -⟩, hbase⟩, -⟩ := h
  rw [decode_of_opcode_jmp hop, hbase]

/-- A word with the read bits of a trap decodes to it. -/
theorem decode_of_read_trap {w : Word} {v : Byte} (h : w &&& 0xF0FF = encode (decodeTrap v)) :
    decode w = decodeTrap v := by
  rw [format_trap, encode_decodeTrap, cat_inj, cat_inj] at h
  obtain ⟨⟨hop, -⟩, hv⟩ := h
  rw [decode_of_opcode_trap hop, hv]

/-! ### From the word to the instruction and back -/

/-- The encoding of the decoded word is the word's read bits. -/
theorem encode_decode (w : Word) : encode (decode w) = w &&& (decode w).readBits := by
  obtain (h | h | h | h | h | h | h | h) | (h | h | h | h | h | h | h | h) := opcode_cases (fieldOpcode w)
  · rw [decode_of_opcode_br h, Instr.readBits, format_pcRel, h]; rfl
  · rw [decode_of_opcode_add h]
    split
    · next hb => rw [Instr.readBits, format_imm, h, bitField_eq, hb]; rfl
    · next hb => rw [Instr.readBits, format_reg, h, bitField_eq, Bool.eq_false_iff.mpr hb]; rfl
  · rw [decode_of_opcode_ld h, Instr.readBits, format_pcRel, h]; rfl
  · rw [decode_of_opcode_st h, Instr.readBits, format_pcRel, h]; rfl
  · rw [decode_of_opcode_call h]
    split
    · next hb => rw [Instr.readBits, format_jsr, h, bitField_eq, hb]; rfl
    · next hb => rw [Instr.readBits, format_jsrr, h, bitField_eq, Bool.eq_false_iff.mpr hb]; rfl
  · rw [decode_of_opcode_and h]
    split
    · next hb => rw [Instr.readBits, format_imm, h, bitField_eq, hb]; rfl
    · next hb => rw [Instr.readBits, format_reg, h, bitField_eq, Bool.eq_false_iff.mpr hb]; rfl
  · rw [decode_of_opcode_ldr h, Instr.readBits, format_base, h]; rfl
  · rw [decode_of_opcode_str h, Instr.readBits, format_base, h]; rfl
  · rw [decode_of_opcode_res8 h, Instr.readBits, format_reserved, h]; rfl
  · rw [decode_of_opcode_not h, Instr.readBits, format_not, h]; rfl
  · rw [decode_of_opcode_ldi h, Instr.readBits, format_pcRel, h]; rfl
  · rw [decode_of_opcode_sti h, Instr.readBits, format_pcRel, h]; rfl
  · rw [decode_of_opcode_jmp h, readBits_decodeJmp, format_jmp, h, encode_decodeJmp]
  · rw [decode_of_opcode_res13 h, Instr.readBits, format_reserved, h]; rfl
  · rw [decode_of_opcode_lea h, Instr.readBits, format_pcRel, h]; rfl
  · rw [decode_of_opcode_trap h, readBits_decodeTrap, format_trap, h, encode_decodeTrap]

/-- A word whose read bits are those of an instruction's encoding decodes to the instruction. -/
theorem decode_of_read {i : Instr} (hi : i.wellFormed = true) {w : Word} (h : w &&& i.readBits = encode i) :
    decode w = i := by
  cases i with
  | br mask off =>
    rw [Instr.readBits, format_pcRel, encode, cat_inj, cat_inj] at h
    obtain ⟨⟨hop, hmask⟩, hoff⟩ := h
    rw [decode_of_opcode_br hop, hmask, hoff]
  | addReg dr sr1 sr2 =>
    rw [Instr.readBits, format_reg, encode, cat_inj, cat_inj, cat_inj, cat_inj] at h
    obtain ⟨⟨⟨⟨hop, hdr⟩, hsr1⟩, hbit⟩, hsr2⟩ := h
    rw [decode_of_opcode_add hop, bit_of_zeros hbit, hdr, hsr1, hsr2]; rfl
  | addImm dr sr1 imm =>
    rw [Instr.readBits, format_imm, encode, cat_inj, cat_inj, cat_inj, cat_inj] at h
    obtain ⟨⟨⟨⟨hop, hdr⟩, hsr1⟩, hbit⟩, himm⟩ := h
    rw [decode_of_opcode_add hop, bit_of_one hbit, hdr, hsr1, himm]; rfl
  | ld dr off =>
    rw [Instr.readBits, format_pcRel, encode, cat_inj, cat_inj] at h
    obtain ⟨⟨hop, hdr⟩, hoff⟩ := h
    rw [decode_of_opcode_ld hop, hdr, hoff]
  | st sr off =>
    rw [Instr.readBits, format_pcRel, encode, cat_inj, cat_inj] at h
    obtain ⟨⟨hop, hsr⟩, hoff⟩ := h
    rw [decode_of_opcode_st hop, hsr, hoff]
  | jsrr base =>
    rw [Instr.readBits, format_jsrr, encode, cat_inj, cat_inj, cat_inj] at h
    obtain ⟨⟨⟨hop, hbit⟩, hbase⟩, -⟩ := h
    rw [decode_of_opcode_call hop, bit_of_zeros hbit, hbase]; rfl
  | jsr off =>
    rw [Instr.readBits, format_jsr, encode, cat_inj, cat_inj] at h
    obtain ⟨⟨hop, hbit⟩, hoff⟩ := h
    rw [decode_of_opcode_call hop, bit_of_one hbit, hoff]; rfl
  | andReg dr sr1 sr2 =>
    rw [Instr.readBits, format_reg, encode, cat_inj, cat_inj, cat_inj, cat_inj] at h
    obtain ⟨⟨⟨⟨hop, hdr⟩, hsr1⟩, hbit⟩, hsr2⟩ := h
    rw [decode_of_opcode_and hop, bit_of_zeros hbit, hdr, hsr1, hsr2]; rfl
  | andImm dr sr1 imm =>
    rw [Instr.readBits, format_imm, encode, cat_inj, cat_inj, cat_inj, cat_inj] at h
    obtain ⟨⟨⟨⟨hop, hdr⟩, hsr1⟩, hbit⟩, himm⟩ := h
    rw [decode_of_opcode_and hop, bit_of_one hbit, hdr, hsr1, himm]; rfl
  | ldr dr base off =>
    rw [Instr.readBits, format_base, encode, cat_inj, cat_inj, cat_inj] at h
    obtain ⟨⟨⟨hop, hdr⟩, hbase⟩, hoff⟩ := h
    rw [decode_of_opcode_ldr hop, hdr, hbase, hoff]
  | str sr base off =>
    rw [Instr.readBits, format_base, encode, cat_inj, cat_inj, cat_inj] at h
    obtain ⟨⟨⟨hop, hsr⟩, hbase⟩, hoff⟩ := h
    rw [decode_of_opcode_str hop, hsr, hbase, hoff]
  | res8 =>
    rw [Instr.readBits, format_reserved, encode, cat_inj] at h
    exact decode_of_opcode_res8 h.1
  | not dr sr =>
    rw [Instr.readBits, format_not, encode, cat_inj, cat_inj, cat_inj] at h
    obtain ⟨⟨⟨hop, hdr⟩, hsr⟩, -⟩ := h
    rw [decode_of_opcode_not hop, hdr, hsr]
  | ldi dr off =>
    rw [Instr.readBits, format_pcRel, encode, cat_inj, cat_inj] at h
    obtain ⟨⟨hop, hdr⟩, hoff⟩ := h
    rw [decode_of_opcode_ldi hop, hdr, hoff]
  | sti sr off =>
    rw [Instr.readBits, format_pcRel, encode, cat_inj, cat_inj] at h
    obtain ⟨⟨hop, hsr⟩, hoff⟩ := h
    rw [decode_of_opcode_sti hop, hsr, hoff]
  | jmp base =>
    have hrow : decodeJmp base = .jmp base := if_neg (of_decide_eq_true hi)
    exact hrow ▸ decode_of_read_jmp (hrow ▸ h)
  | res13 =>
    rw [Instr.readBits, format_reserved, encode, cat_inj] at h
    exact decode_of_opcode_res13 h.1
  | lea dr off =>
    rw [Instr.readBits, format_pcRel, encode, cat_inj, cat_inj] at h
    obtain ⟨⟨hop, hdr⟩, hoff⟩ := h
    rw [decode_of_opcode_lea hop, hdr, hoff]
  | trap v =>
    have hrow : decodeTrap v = .trap v := decodeTrap_of_unknown (by simpa [Instr.wellFormed] using hi)
    exact hrow ▸ decode_of_read_trap (hrow ▸ h)
  | trapGetc => exact decode_of_read_trap (v := 0x20) h
  | trapOut => exact decode_of_read_trap (v := 0x21) h
  | trapPuts => exact decode_of_read_trap (v := 0x22) h
  | trapIn => exact decode_of_read_trap (v := 0x23) h
  | trapPutsp => exact decode_of_read_trap (v := 0x24) h
  | trapHalt => exact decode_of_read_trap (v := 0x25) h
  | ret => exact decode_of_read_jmp (base := 7) h

theorem decode_wellFormed (w : Word) : (decode w).wellFormed = true := by
  obtain (h | h | h | h | h | h | h | h) | (h | h | h | h | h | h | h | h) := opcode_cases (fieldOpcode w)
  · rw [decode_of_opcode_br h]; rfl
  · rw [decode_of_opcode_add h]; split <;> rfl
  · rw [decode_of_opcode_ld h]; rfl
  · rw [decode_of_opcode_st h]; rfl
  · rw [decode_of_opcode_call h]; split <;> rfl
  · rw [decode_of_opcode_and h]; split <;> rfl
  · rw [decode_of_opcode_ldr h]; rfl
  · rw [decode_of_opcode_str h]; rfl
  · rw [decode_of_opcode_res8 h]; rfl
  · rw [decode_of_opcode_not h]; rfl
  · rw [decode_of_opcode_ldi h]; rfl
  · rw [decode_of_opcode_sti h]; rfl
  · rw [decode_of_opcode_jmp h, wellFormed_decodeJmp]
  · rw [decode_of_opcode_res13 h]; rfl
  · rw [decode_of_opcode_lea h]; rfl
  · rw [decode_of_opcode_trap h, wellFormed_decodeTrap]

/-- The encoder writes ones only where the instruction reads (log 9): part by part of each format. -/
theorem encode_and_readBits (i : Instr) : encode i &&& i.readBits = encode i := by
  cases i with
  | br | addImm | ld | st | jsr | andImm | ldr | str | ldi | sti | lea => exact BitVec.and_allOnes
  | addReg dr sr1 sr2 =>
    show (0x1#4 ++ dr ++ sr1 ++ 0b000#3 ++ sr2) &&& (BitVec.allOnes (4 + 3 + 3) ++ 0b100#3 ++ BitVec.allOnes 3) = _
    rw [BitVec.and_append, BitVec.and_append, BitVec.and_allOnes, BitVec.and_allOnes]; rfl
  | andReg dr sr1 sr2 =>
    show (0x5#4 ++ dr ++ sr1 ++ 0b000#3 ++ sr2) &&& (BitVec.allOnes (4 + 3 + 3) ++ 0b100#3 ++ BitVec.allOnes 3) = _
    rw [BitVec.and_append, BitVec.and_append, BitVec.and_allOnes, BitVec.and_allOnes]; rfl
  | not dr sr =>
    show (0x9#4 ++ dr ++ sr ++ 0b000000#6) &&& (BitVec.allOnes (4 + 3 + 3) ++ 0b000000#6) = _
    rw [BitVec.and_append, BitVec.and_allOnes]; rfl
  | jsrr base =>
    show (0x4#4 ++ 0b000#3 ++ base ++ 0b000000#6) &&& (0xF#4 ++ 0b100#3 ++ BitVec.allOnes 3 ++ 0b000000#6) = _
    rw [BitVec.and_append, BitVec.and_append, BitVec.and_allOnes]; rfl
  | jmp base =>
    show (0xC#4 ++ 0b000#3 ++ base ++ 0b000000#6) &&& (0xF#4 ++ 0b000#3 ++ BitVec.allOnes 3 ++ 0b000000#6) = _
    rw [BitVec.and_append, BitVec.and_append, BitVec.and_allOnes]; rfl
  | trap v =>
    show (0xF#4 ++ 0x0#4 ++ v) &&& (0xF#4 ++ 0x0#4 ++ BitVec.allOnes 8) = _
    rw [BitVec.and_append, BitVec.and_allOnes]; rfl
  | res8 | res13 | trapGetc | trapOut | trapPuts | trapIn | trapPutsp | trapHalt | ret => rfl

/-! ### The rows of the opcode table -/

theorem encode_meets_row (i : Instr) : encode i &&& i.row.mask = i.row.pattern := by
  cases i with
  | br => exact Laws.FixedBits.br ..
  | addReg => exact Laws.FixedBits.addReg ..
  | addImm => exact Laws.FixedBits.addImm ..
  | ld => exact Laws.FixedBits.ld ..
  | st => exact Laws.FixedBits.st ..
  | jsrr => exact Laws.FixedBits.jsrr ..
  | jsr => exact Laws.FixedBits.jsr ..
  | andReg => exact Laws.FixedBits.andReg ..
  | andImm => exact Laws.FixedBits.andImm ..
  | ldr => exact Laws.FixedBits.ldr ..
  | str => exact Laws.FixedBits.str ..
  | res8 => exact Laws.FixedBits.res8
  | not => exact Laws.FixedBits.not ..
  | ldi => exact Laws.FixedBits.ldi ..
  | sti => exact Laws.FixedBits.sti ..
  | jmp => exact Laws.FixedBits.jmp ..
  | res13 => exact Laws.FixedBits.res13
  | lea => exact Laws.FixedBits.lea ..
  | trap => exact Laws.FixedBits.trap ..
  | trapGetc => exact Laws.FixedBits.trapGetc
  | trapOut => exact Laws.FixedBits.trapOut
  | trapPuts => exact Laws.FixedBits.trapPuts
  | trapIn => exact Laws.FixedBits.trapIn
  | trapPutsp => exact Laws.FixedBits.trapPutsp
  | trapHalt => exact Laws.FixedBits.trapHalt
  | ret => exact Laws.FixedBits.ret

/-- A row fixes bits that its instruction reads. -/
theorem readBits_and_rowMask (i : Instr) : i.readBits &&& i.row.mask = i.row.mask := by
  cases i <;> dsimp only [Instr.readBits, Instr.row] <;> decide

theorem TableRow.meets_iff {r : TableRow} {w : Word} : r.meets w = true ↔ w &&& r.mask = r.pattern :=
  decide_eq_true_iff

theorem decode_row_meets (w : Word) : (decode w).row.meets w = true := by
  rw [TableRow.meets_iff, ← readBits_and_rowMask, ← BitVec.and_assoc, ← encode_decode, encode_meets_row]

/-- Every row is a main row or a part of one (R98). -/
theorem row_in_mainRow (i : Instr) :
    ∃ r ∈ mainRows, i.row.mask &&& r.mask = r.mask ∧ i.row.pattern &&& r.mask = r.pattern := by
  cases i <;> dsimp only [Instr.row] <;> decide

/-- Two main rows that agree where both fix bits are one row. -/
theorem mainRows_disjoint :
    ∀ r ∈ mainRows, ∀ r' ∈ mainRows, r.pattern &&& r'.mask = r'.pattern &&& r.mask → r = r' := by
  decide

theorem mainRow_exists (w : Word) : ∃ r ∈ mainRows, r.meets w = true := by
  obtain ⟨r, hr, hmask, hpattern⟩ := row_in_mainRow (decode w)
  refine ⟨r, hr, TableRow.meets_iff.mpr ?_⟩
  rw [← hmask, ← BitVec.and_assoc, TableRow.meets_iff.mp (decode_row_meets w), hpattern]

theorem mainRow_unique {r r' : TableRow} (hr : r ∈ mainRows) (hr' : r' ∈ mainRows) {w : Word}
    (h : r.meets w = true) (h' : r'.meets w = true) : r' = r := by
  refine (mainRows_disjoint r hr r' hr' ?_).symm
  rw [← TableRow.meets_iff.mp h, ← TableRow.meets_iff.mp h', BitVec.and_assoc, BitVec.and_assoc,
    BitVec.and_comm r.mask]

end Sys2Proof

open Sys2Proof Sys2Proof.Machine

/-- Settles O2: an encoding is its own read bits, and they decode to the instruction. -/
theorem decodeOfEncodeIsTheInstruction : Obligations.DecodeOfEncodeIsTheInstruction := by
  unfold Obligations.DecodeOfEncodeIsTheInstruction
  exact fun i hi => decode_of_read hi (encode_and_readBits i)

/-- Settles O3: the encoding of a decoded word is its read bits, and a word with the same read bits decodes the
same. -/
theorem ignoredBitsAreAllThatDecodingDrops : Obligations.IgnoredBitsAreAllThatDecodingDrops := by
  unfold Obligations.IgnoredBitsAreAllThatDecodingDrops
  exact ⟨encode_decode, fun w v h => decode_of_read (decode_wellFormed w) (h.symm.trans (encode_decode w).symm)⟩

/-- Settles O4: the row of the decoded instruction lies in a main row, and main rows exclude each other. -/
theorem everyWordDecodesToItsOneTableRow : Obligations.EveryWordDecodesToItsOneTableRow := by
  unfold Obligations.EveryWordDecodesToItsOneTableRow
  intro w
  obtain ⟨r, hr, hmeets⟩ := mainRow_exists w
  exact ⟨⟨r, hr, hmeets, fun _ hr' h' => mainRow_unique hr hr' hmeets h'⟩, decode_row_meets w, decode_wellFormed w⟩

/-- Settles O5: the decoder, run on the nine words. -/
theorem sampleWordsDecode : Obligations.SampleWordsDecode := by
  unfold Obligations.SampleWordsDecode
  decide

end

section
/-! PROOFS. Memory, the device registers and the cycle (20_memory.md R56 to R60, 40_control_unit.md R120 to R123). -/

namespace Sys2Proof.Machine

/-! ### The two device cells -/

theorem cell_setReady_self {s : State} (hs : s.mem.wf = true) (b : Bool) :
    (s.setReady b).cell kbsr = withReady (s.cell kbsr) b := by
  rw [State.setReady, State.cell_setCell hs, if_pos rfl]

theorem cell_setReady_of_ne {s : State} (hs : s.mem.wf = true) (b : Bool) {a : Word} (h : a ≠ kbsr) :
    (s.setReady b).cell a = s.cell a := by
  rw [State.setReady, State.cell_setCell hs, if_neg h.symm]

theorem cell_deliver_self {s : State} (hs : s.mem.wf = true) (c : Word) : (s.deliver c).cell kbdr = c :=
  (State.cell_setCell hs kbdr kbdr c).trans (if_pos rfl)

theorem cell_deliver_of_ne {s : State} (hs : s.mem.wf = true) (c : Word) {a : Word} (h : a ≠ kbdr) :
    (s.deliver c).cell a = s.cell a :=
  (State.cell_setCell hs kbdr a c).trans (if_neg h.symm)

theorem wf_deliver {s : State} (hs : s.mem.wf = true) (c : Word) : (s.deliver c).mem.wf = true :=
  State.wf_setCell hs kbdr c

theorem kbsr_ne_kbdr : kbsr ≠ kbdr := by decide

/-- A word under its own ready bit is itself. -/
theorem withReady_self (w : Word) : withReady w (w.getLsbD 15) = w := by
  refine word_ext fun i => ?_
  cases h : w.getLsbD 15 <;> rw [BitVec.getLsbD_eq_getElem (by decide)] at h
  · rw [withReady_false, BitVec.getLsbD_and]
    fin_cases i <;> simp [h]
  · rw [withReady_true, BitVec.getLsbD_or]
    fin_cases i <;> simp [h]

/-! ### The drain -/

theorem drain_of_key {s : State} {c : Word} {rest : List Word} (hq : s.queue = c :: rest) (hr : s.ready = false) :
    s.drain = ({ s with queue := rest }.deliver c).setReady true := by
  simp [State.drain, hq, hr]

theorem drain_of_empty {s : State} (h : s.queue = []) : s.drain = s := by
  simp [State.drain, h]

theorem drain_of_ready {s : State} (h : s.ready = true) : s.drain = s := by
  unfold State.drain
  split
  · rfl
  · rw [if_pos h]

/-- R122: the drain leaves every cell but the two device cells. -/
theorem drain_cell {s : State} (hs : s.mem.wf = true) {a : Word} (h1 : a ≠ kbsr) (h2 : a ≠ kbdr) :
    s.drain.cell a = s.cell a := by
  obtain ⟨c, rest, -, -, h⟩ | ⟨-, h⟩ := drain_cases s
  · rw [h]
    exact (cell_setReady_of_ne (wf_deliver (s := { s with queue := rest }) hs c) true h1).trans
      (cell_deliver_of_ne (s := { s with queue := rest }) hs c h2)
  · rw [h]

/-- R122: what a drained key does to the two device cells. -/
theorem drain_device_cells {s : State} {c : Word} {rest : List Word} (hs : s.mem.wf = true)
    (hq : s.queue = c :: rest) (hr : s.ready = false) :
    s.drain.cell kbdr = c ∧ s.drain.cell kbsr = s.cell kbsr ||| 0x8000 := by
  have hwf := wf_deliver (s := { s with queue := rest }) hs c
  rw [drain_of_key hq hr]
  constructor
  · exact (cell_setReady_of_ne hwf true kbsr_ne_kbdr.symm).trans
      (cell_deliver_self (s := { s with queue := rest }) hs c)
  · rw [cell_setReady_self hwf, withReady_true, cell_deliver_of_ne (s := { s with queue := rest }) hs c kbsr_ne_kbdr]
    rfl

/-! ### The status read -/

theorem deliverPending_of_key {s : State} {c : Word} {rest : List Word} (hk : s.kbAvail = false)
    (hq : s.queue = c :: rest) : s.deliverPending = { s with queue := rest }.deliver c := by
  simp [State.deliverPending, hk, hq]

theorem deliverPending_of_avail {s : State} (hk : s.kbAvail = true) : s.deliverPending = s := by
  simp [State.deliverPending, hk]

theorem deliverPending_of_empty {s : State} (hq : s.queue = []) : s.deliverPending = s := by
  simp [State.deliverPending, hq]

theorem deliverPending_wf {s : State} (hs : s.mem.wf = true) : s.deliverPending.mem.wf = true := by
  obtain ⟨c, rest, -, -, h⟩ | ⟨-, h⟩ := deliverPending_cases s <;> rw [h]
  · exact wf_deliver (s := { s with queue := rest }) hs c
  · exact hs

theorem deliverPending_cell {s : State} (hs : s.mem.wf = true) {a : Word} (ha : a ≠ kbdr) :
    s.deliverPending.cell a = s.cell a := by
  obtain ⟨c, rest, -, -, h⟩ | ⟨-, h⟩ := deliverPending_cases s <;> rw [h]
  exact cell_deliver_of_ne (s := { s with queue := rest }) hs c ha

theorem memRead_kbsr (s : State) : s.memRead kbsr = s.statusRead := if_pos rfl

/-- The status register by its address. -/
theorem memRead_status (s : State) : s.memRead 0xFE00 = s.statusRead := memRead_kbsr s

theorem memRead_kbdr (s : State) : s.memRead kbdr = s.dataRead := by
  rw [State.memRead, if_neg kbsr_ne_kbdr.symm, if_pos rfl]

/-- R56: the word a status read answers: the cell with bit 15 as the delivery left `kb_avail`. -/
theorem statusRead_word {s : State} (hs : s.mem.wf = true) :
    s.statusRead.1 = withReady (s.cell kbsr) s.deliverPending.kbAvail := by
  rw [← deliverPending_cell hs kbsr_ne_kbdr]
  exact cell_setReady_self (deliverPending_wf hs) _

/-- R56: after the delivery a status read writes its own cell alone. -/
theorem statusRead_cell {s : State} (hs : s.mem.wf = true) {a : Word} (ha : a ≠ kbsr) :
    s.statusRead.2.cell a = s.deliverPending.cell a :=
  cell_setReady_of_ne (deliverPending_wf hs) _ ha

/-- The status read by what its delivery leaves. -/
theorem statusRead_of_delivery {s d : State} (hs : s.mem.wf = true) (hd : s.deliverPending = d) :
    s.statusRead.1 = withReady (s.cell kbsr) d.kbAvail ∧ s.statusRead.2.queue = d.queue ∧
      s.statusRead.2.cell kbdr = d.cell kbdr ∧ s.statusRead.2.kbAvail = d.kbAvail := by
  subst hd
  exact ⟨statusRead_word hs, rfl, statusRead_cell hs kbsr_ne_kbdr.symm, rfl⟩

/-! ### The cycle -/

theorem fetch_of_ordinary {s : State} (h1 : s.pc ≠ kbsr) (h2 : s.pc ≠ kbdr) :
    s.fetch = { s with ir := s.cell s.pc, pc := s.pc + 1 } := by
  rw [State.fetch, blockRead_ordinary h1 h2]

/-- R120: with `running` true at the halt check, a step is drain, fetch and the execution of the fetched word. -/
theorem step_of_halt_check {s : State} (ha : s.activity = .betweenCycles) (h : s.relayPoint.running = true) :
    step s = exec (decode s.relayPoint.drainFetch.ir) s.relayPoint.drainFetch := by
  rw [step_eq, ha]
  exact if_pos h

/-- R121: with `running` false at the halt check, the run is over. -/
theorem step_of_failed_halt_check {s : State} (ha : s.activity = .betweenCycles) (h : s.relayPoint.running = false) :
    step s = .next { s.relayPoint with activity := .runOver } := by
  rw [step_eq, ha]
  exact if_neg (by simp [h])

theorem step_of_runOver {s : State} (ha : s.activity = .runOver) : step s = .next s := by
  rw [step_eq, ha]

/-- R120 with no key queued, no relay action and an ordinary pc. -/
theorem step_of_ordinary {s : State} (ha : s.activity = .betweenCycles) (hrun : s.running = true)
    (hq : s.queue = []) (hr : s.relay = []) (h1 : s.pc ≠ kbsr) (h2 : s.pc ≠ kbdr) :
    step s = exec (decode (s.cell s.pc)) { s with ir := s.cell s.pc, pc := s.pc + 1 } := by
  rw [step_of_running ha hrun hr, drain_of_empty hq, fetch_of_ordinary h1 h2]

/-! ### Loads -/

/-- What a load leaves alone. -/
theorem loadInto_leaves {s : State} (hs : s.mem.wf = true) (dr : RegIdx) (ea : Word) :
    (∀ a : Word, a ≠ kbsr → a ≠ kbdr → (s.loadInto dr ea).cell a = s.cell a) ∧
      (s.loadInto dr ea).pc = s.pc ∧ (s.loadInto dr ea).ir = s.ir ∧ (s.loadInto dr ea).output = s.output ∧
      (s.loadInto dr ea).activity = s.activity ∧
      ∀ r, some dr ≠ some r → (s.loadInto dr ea).getReg r = s.getReg r :=
  ⟨fun _ h1 h2 => blockRead_cell hs ea h1 h2, blockRead_pc .., blockRead_ir .., blockRead_output ..,
    blockRead_activity .., fun _ hr => getReg_loadInto_of_ne (fun e => hr (congrArg some e.symm)) ..⟩

/-! ### The placed word -/

theorem withFetchWord_eq (s : State) (w : Word) : s.withFetchWord 16 w.toNat = s.placeWord w := by
  rw [State.withFetchWord, Nat.mod_eq_of_lt w.isLt, BitVec.ofNat_toNat, BitVec.setWidth_eq]

/-- What placing a word leaves alone, and that it leaves the block ready for a cycle. -/
theorem placeWord_eq (s : State) (w : Word) :
    s.placeWord w = { s with
      activity := .betweenCycles, running := true, mem := s.mem.write s.pc.toNat w,
      queue := (s.placeWord w).queue, kbAvail := (s.placeWord w).kbAvail, relay := (s.placeWord w).relay } := by
  unfold State.placeWord State.quietKeyboard
  split_ifs <;> rfl

@[simp] theorem placeWord_pc (s : State) (w : Word) : (s.placeWord w).pc = s.pc := by rw [placeWord_eq]
@[simp] theorem placeWord_regs (s : State) (w : Word) : (s.placeWord w).regs = s.regs := by rw [placeWord_eq]
@[simp] theorem placeWord_cc (s : State) (w : Word) : (s.placeWord w).cc = s.cc := by rw [placeWord_eq]
@[simp] theorem placeWord_output (s : State) (w : Word) : (s.placeWord w).output = s.output := by rw [placeWord_eq]
@[simp] theorem placeWord_activity (s : State) (w : Word) : (s.placeWord w).activity = .betweenCycles := by
  rw [placeWord_eq]

theorem placeWord_wf {s : State} (hs : s.mem.wf = true) (w : Word) : (s.placeWord w).mem.wf = true := by
  rw [placeWord_eq]
  exact Memory.wf_write hs s.pc.isLt w

theorem placeWord_cell {s : State} (hs : s.mem.wf = true) (w : Word) : (s.placeWord w).cell s.pc = w := by
  rw [State.cell, placeWord_eq, Memory.read_write hs, if_pos rfl]

/-- Without a halt request before the first pass, a point of the relay leaves `running`. -/
theorem relayRun_running_of_not_haltsAtOnce {l : List RelayEvent} (h : haltsAtOnce l = false) (s : State) :
    (relayRun l s).running = s.running := by
  induction l generalizing s with
  | nil => rfl
  | cons e l ih =>
    cases e with
    | push c => exact ih h _
    | halt => cases h
    | pass => rfl

theorem readyToFetch_haltsAtOnce (s : State) : haltsAtOnce s.readyToFetch.relay = false := by
  unfold State.readyToFetch
  dsimp only
  split
  · rfl
  · next h => exact Bool.eq_false_iff.mpr h

/-- The placed word's cycle passes its halt check: at a device address nothing is left to come, elsewhere no halt
request before it. -/
theorem placeWord_haltsAtOnce (s : State) (w : Word) : haltsAtOnce (s.placeWord w).relay = false := by
  unfold State.placeWord State.quietKeyboard
  split_ifs
  · rfl
  · rfl
  · exact readyToFetch_haltsAtOnce s

theorem placeWord_running (s : State) (w : Word) : (s.placeWord w).relayPoint.running = true :=
  (relayRun_running_of_not_haltsAtOnce (placeWord_haltsAtOnce s w) _).trans (by rw [placeWord_eq])

/-- At a device address nothing is queued or to come that could change the placed word. -/
theorem placeWord_quiet {s : State} (h : s.pc = kbsr ∨ s.pc = kbdr) (w : Word) :
    (s.placeWord w).queue = [] ∧ (s.placeWord w).relay = [] := by
  unfold State.placeWord State.quietKeyboard State.readyToFetch
  rcases h with h | h
  · simp [h]
  · simp [h, kbsr_ne_kbdr.symm]

theorem placeWord_kbAvail {s : State} (h : s.pc = kbsr) (w : Word) : (s.placeWord w).kbAvail = w.getLsbD 15 := by
  simp [State.placeWord, State.quietKeyboard, State.readyToFetch, h]

/-- A placed word at an ordinary pc is fetched: neither the relay nor the drain writes its cell. -/
theorem placeWord_fetched_ordinary {s : State} (hs : s.mem.wf = true) (h1 : s.pc ≠ kbsr) (h2 : s.pc ≠ kbdr)
    (w : Word) : (s.placeWord w).relayPoint.drainFetch.ir = w := by
  have hpc : (s.placeWord w).relayPoint.relayPoint.drain.pc = s.pc := by simp
  have hwf : (s.placeWord w).relayPoint.relayPoint.mem.wf = true := by simpa using placeWord_wf hs w
  rw [State.drainFetch, fetch_ir, hpc, blockRead_ordinary h1 h2]
  calc (s.placeWord w).relayPoint.relayPoint.drain.cell s.pc
      = (s.placeWord w).relayPoint.relayPoint.cell s.pc := drain_cell hwf h1 h2
    _ = (s.placeWord w).cell s.pc := State.cell_congr (by simp) s.pc
    _ = w := placeWord_cell hs w

/-- A placed word at a device address is fetched: the drain does nothing, and the read answers the cell. -/
theorem placeWord_fetched_device {s : State} (hs : s.mem.wf = true) (h : s.pc = kbsr ∨ s.pc = kbdr) (w : Word) :
    (s.placeWord w).relayPoint.drainFetch.ir = w := by
  obtain ⟨hq, hr⟩ := placeWord_quiet h w
  have hcell := placeWord_cell hs w
  rw [State.drainFetch, relayPoint_of_nil hr, relayPoint_of_nil hr, drain_of_empty hq, fetch_ir, placeWord_pc,
    blockRead_of_relay_nil hr]
  rcases h with h | h <;> rw [h] at hcell ⊢
  · rw [memRead_kbsr, statusRead_word (placeWord_wf hs w), deliverPending_of_empty hq, placeWord_kbAvail h, hcell,
      withReady_self]
  · rw [memRead_kbdr]
    exact hcell

theorem placeWord_fetched {s : State} (hs : s.mem.wf = true) (w : Word) :
    (s.placeWord w).relayPoint.drainFetch.ir = w := by
  by_cases h1 : s.pc = kbsr
  · exact placeWord_fetched_device hs (.inl h1) w
  by_cases h2 : s.pc = kbdr
  · exact placeWord_fetched_device hs (.inr h2) w
  · exact placeWord_fetched_ordinary hs h1 h2 w

end Sys2Proof.Machine

open Sys2Proof Sys2Proof.Machine

/-- Settles O8: a drained key is delivered and the ready bit set; else the drain is the identity. -/
theorem drainMovesTheOldestKey : Obligations.DrainMovesTheOldestKey := by
  unfold Obligations.DrainMovesTheOldestKey
  refine ⟨fun s c rest hs hq hr => ?_, fun s h => h.elim drain_of_empty drain_of_ready⟩
  obtain ⟨hdata, hstatus⟩ := drain_device_cells hs hq hr
  refine ⟨?_, hdata, ?_, hstatus, fun _ h1 h2 => drain_cell hs h1 h2, ?_⟩ <;> rw [drain_of_key hq hr] <;> rfl

/-- Settles O17: the three cases are those of the delivery, after which the read writes its own cell alone. -/
theorem statusReadDeliversAPendingKey : Obligations.StatusReadDeliversAPendingKey := by
  unfold Obligations.StatusReadDeliversAPendingKey
  simp only [memRead_status]
  refine ⟨fun s c rest hs hk hq => ?_, fun s hs hk => ?_, fun s hs hk hq => ?_, fun s hs => ?_⟩
  · obtain ⟨hword, hqueue, hdata, havail⟩ := statusRead_of_delivery hs (deliverPending_of_key hk hq)
    exact ⟨hword.trans (withReady_true _), hqueue, hdata.trans (cell_deliver_self (s := { s with queue := rest }) hs c),
      havail⟩
  · obtain ⟨hword, hqueue, hdata, havail⟩ := statusRead_of_delivery hs (deliverPending_of_avail hk)
    rw [hk] at hword havail
    exact ⟨hword.trans (withReady_true _), hqueue, hdata, havail⟩
  · obtain ⟨hword, hqueue, hdata, havail⟩ := statusRead_of_delivery hs (deliverPending_of_empty hq)
    rw [hk] at hword havail
    exact ⟨hword.trans (withReady_false _), hqueue.trans hq, hdata, havail⟩
  · exact ⟨rfl, fun a h1 h2 => (statusRead_cell hs h1).trans (deliverPending_cell hs h2), statusRead_eq s⟩

/-- Settles O20: the store of R58. -/
theorem writeIsAPlainStore : Obligations.WriteIsAPlainStore := by
  unfold Obligations.WriteIsAPlainStore
  exact fun s a v hs => ⟨cell_memWrite_self hs a v, fun _ hb => cell_memWrite_of_ne hs hb v, memWrite_frame s a v⟩

/-- Settles O18: the two other cases of `MemRead`. -/
theorem dataAndOrdinaryReads : Obligations.DataAndOrdinaryReads := by
  unfold Obligations.DataAndOrdinaryReads
  exact ⟨memRead_kbdr, fun _ _ h1 h2 => memRead_ordinary h1 h2⟩

/-- Settles O19: the relay's point stands before the read at the status register alone. -/
theorem blockReadIsMemRead : Obligations.BlockReadIsMemRead := by
  unfold Obligations.BlockReadIsMemRead
  refine ⟨fun s a h => ?_, fun s => rfl⟩
  rcases h with h | h
  · rw [State.blockRead, if_neg (show ¬ a = kbsr from h)]
  · exact blockRead_of_relay_nil h a

/-- Settles O6: the step from between two cycles, and what it comes to when nothing can happen before the fetch. -/
theorem stepRunsTheDecodedInstruction : Obligations.StepRunsTheDecodedInstruction := by
  unfold Obligations.StepRunsTheDecodedInstruction
  refine ⟨fun s ha h => step_of_halt_check ha h, fun s i ha hrun hq hr h1 h2 hi => ?_⟩
  rw [step_of_ordinary ha hrun hq hr h1 h2, hi]

/-- Settles O7: the fetch writes `ir` and `pc` alone after its read. -/
theorem fetchReadsAtPcAndIncrements : Obligations.FetchReadsAtPcAndIncrements := by
  unfold Obligations.FetchReadsAtPcAndIncrements
  exact fun s => ⟨rfl, by rw [fetch_pc, BitVec.toNat_add]; rfl, rfl⟩

/-- Settles O9: the halt check's other branch, and the step of a run that is over. -/
theorem haltCheckEndsTheRun : Obligations.HaltCheckEndsTheRun := by
  unfold Obligations.HaltCheckEndsTheRun
  exact ⟨fun _ ha h => step_of_failed_halt_check ha h, fun _ ha h hr => step_of_not_running ha h hr,
    fun _ ha => step_of_runOver ha⟩

/-- Settles O16: the placed word is what the next cycle fetches, and neither drain nor fetch writes a register, cc or
the output. -/
theorem placedWordRunsNext : Obligations.PlacedWordRunsNext := by
  unfold Obligations.PlacedWordRunsNext
  intro s w hs
  have hir := placeWord_fetched hs w
  refine ⟨(s.placeWord w).relayPoint.drainFetch, ?_, hir, ?_, ?_, ?_, ?_⟩
  · rw [withFetchWord_eq, step_of_halt_check (placeWord_activity s w) (placeWord_running s w), hir]
  all_goals simp

/-- Settles O21: with offset 0 the store is at pc, where the next step fetches. -/
theorem storeOntoTheNextInstructionIsFetched : Obligations.StoreOntoTheNextInstructionIsFetched := by
  unfold Obligations.StoreOntoTheNextInstructionIsFetched
  intro s sr hs ha hrun hq hr h1 h2
  have hea : s.pc + (0 : BitVec 9).signExtend 16 = s.pc := by simp
  refine ⟨s.memWrite s.pc (s.getReg sr), by rw [exec_st, hea], ?_⟩
  rw [step_of_ordinary (s := s.memWrite s.pc (s.getReg sr)) ha hrun hq hr h1 h2, State.memWrite_pc,
    cell_memWrite_self hs]

/-- Settles O32: a load's reads touch the two device cells at most, and its result goes to DR. -/
theorem loadsLeaveMemoryButTheDeviceCells : Obligations.LoadsLeaveMemoryButTheDeviceCells := by
  unfold Obligations.LoadsLeaveMemoryButTheDeviceCells
  intro i s t hs hi ht
  rcases hi with ⟨dr, off, rfl⟩ | ⟨dr, off, rfl⟩ | ⟨dr, base, off, rfl⟩ <;> cases ht
  · exact loadInto_leaves hs dr _
  · obtain ⟨hcell, hpc, hir, hout, hact, hreg⟩ :=
      loadInto_leaves (blockRead_wf hs (s.pcRel9 off)) dr (s.blockRead (s.pcRel9 off)).1
    exact ⟨fun a h1 h2 => (hcell a h1 h2).trans (blockRead_cell hs _ h1 h2), hpc.trans (blockRead_pc ..),
      hir.trans (blockRead_ir ..), hout.trans (blockRead_output ..), hact.trans (blockRead_activity ..),
      fun r hr => (hreg r hr).trans (blockRead_getReg ..)⟩
  · exact loadInto_leaves hs dr _

end

section
/-! PROOFS. AND and control transfer (41_operate.md R142; 43_control_transfer.md R180, R182 and R183). -/

namespace Sys2Proof.Machine

/-! ### AND -/

theorem exec_andReg (dr sr1 sr2 : RegIdx) (s : State) :
    exec (.andReg dr sr1 sr2) s = .next (s.setReg dr (s.getReg sr1 &&& s.getReg sr2)) := rfl

theorem exec_andImm (dr sr1 : RegIdx) (imm : BitVec 5) (s : State) :
    exec (.andImm dr sr1 imm) s = .next (s.setReg dr (s.getReg sr1 &&& imm.signExtend 16)) := rfl

theorem getReg_setReg_of_ne {r i : RegIdx} (h : r ≠ i) (s : State) (v : Word) :
    (s.setReg i v).getReg r = s.getReg r := by
  rw [State.getReg_setReg, if_neg h.symm]

/-- A register write changes the registers alone. -/
theorem setReg_frame (s : State) (i : RegIdx) (v : Word) :
    s.setReg i v = { s with regs := (s.setReg i v).regs } := rfl

/-- R142 with AND_SETS_CC: AND's write is that of a result. -/
theorem andInto_of_setsCC {cfg : Config} (h : cfg.andSetsCC = true) (dr : RegIdx) (v : Word) (s : State) :
    (andInto cfg dr v s).getReg dr = v ∧ (andInto cfg dr v s).cc = ccOf v := by
  rw [andInto, if_pos h]
  exact ⟨getReg_setResult_self .., State.setResult_cc_of ..⟩

/-! ### BR -/

/-- R180: the branch test bit by bit (n is bit 2 of the mask, z bit 1, p bit 0). -/
theorem mask_and_ccBits_ne_zero_iff (mask : BitVec 3) (cc : CondCode) :
    mask &&& ccBits cc ≠ 0#3 ↔ (cc = .n ∧ mask.getLsbD 2 = true) ∨ (cc = .z ∧ mask.getLsbD 1 = true) ∨
      (cc = .p ∧ mask.getLsbD 0 = true) := by
  cases cc <;> revert mask <;> decide

theorem branchTaken_iff {s : State} {mask : BitVec 3} :
    s.branchTaken mask = true ↔ (s.cc = .n ∧ mask.getLsbD 2 = true) ∨ (s.cc = .z ∧ mask.getLsbD 1 = true) ∨
      (s.cc = .p ∧ mask.getLsbD 0 = true) :=
  decide_eq_true_iff.trans (mask_and_ccBits_ne_zero_iff mask s.cc)

theorem exec_br_of_taken {s : State} {mask : BitVec 3} (h : s.branchTaken mask = true) (off : BitVec 9) :
    exec (.br mask off) s = .next (s.setPc (s.pc + off.signExtend 16)) :=
  congrArg _ (if_pos h)

theorem exec_br_of_not_taken {s : State} {mask : BitVec 3} (h : s.branchTaken mask = false) (off : BitVec 9) :
    exec (.br mask off) s = .next s :=
  congrArg _ (if_neg (by simp [h]))

/-- R102: mask 000 never branches, whatever cc is. -/
theorem branchTaken_never (s : State) : s.branchTaken 0b000 = false := by
  unfold State.branchTaken
  cases s.cc <;> rfl

/-- R102: mask 111 always branches, whatever cc is. -/
theorem branchTaken_always (s : State) : s.branchTaken 0b111 = true := by
  unfold State.branchTaken
  cases s.cc <;> rfl

/-! ### The calls -/

theorem exec_jsr (off : BitVec 11) (s : State) :
    exec (.jsr off) s = .next ((s.setReg 7 s.pc).setPc (s.pc + off.signExtend 16)) := rfl

/-- R183: the base is read after R7 is written, so R7 as a base is the return address. -/
theorem exec_jsrr (base : RegIdx) (s : State) :
    exec (.jsrr base) s = .next ((s.setReg 7 s.pc).setPc (if base = 7 then s.pc else s.getReg base)) := by
  simp only [eq_comm (a := base)]
  rw [← State.getReg_setReg]
  rfl

/-- What a call leaves, wherever it goes. -/
theorem call_leaves (s : State) (target : Word) :
    ((s.setReg 7 s.pc).setPc target).getReg 7 = s.pc ∧
      ∀ r : RegIdx, r ≠ 7 → ((s.setReg 7 s.pc).setPc target).getReg r = s.getReg r :=
  ⟨State.getReg_setReg_self .., fun _ hr => getReg_setReg_of_ne hr ..⟩

end Sys2Proof.Machine

open Sys2Proof Sys2Proof.Machine

/-- Settles O24: AND is a register write, or with AND_SETS_CC the write of a result. -/
theorem andWritesTheConjunction : Obligations.AndWritesTheConjunction := by
  unfold Obligations.AndWritesTheConjunction
  refine ⟨fun _ hw => decode_of_opcode_and hw, fun dr sr1 sr2 s => ?_, fun dr sr1 imm s => ?_,
    fun cfg dr sr1 sr2 s h => andInto_of_setsCC h .., fun cfg dr sr1 imm s h => andInto_of_setsCC h ..⟩
  · exact ⟨_, exec_andReg dr sr1 sr2 s, State.getReg_setReg_self .., fun _ hr => getReg_setReg_of_ne hr ..,
      setReg_frame ..⟩
  · exact ⟨_, exec_andImm dr sr1 imm s, State.getReg_setReg_self .., fun _ hr => getReg_setReg_of_ne hr ..,
      setReg_frame ..⟩

/-- Settles O33: the branch test is the disjunction of the three mask bits' cases. -/
theorem branchTestsTheMaskAgainstCc : Obligations.BranchTestsTheMaskAgainstCc := by
  unfold Obligations.BranchTestsTheMaskAgainstCc
  refine ⟨fun _ hw => decode_of_opcode_br hw, fun mask off s => ?_⟩
  simp only [← branchTaken_iff]
  cases h : s.branchTaken mask with
  | true => exact ⟨_, exec_br_of_taken h off, fun _ => rfl, fun hn => absurd rfl hn, rfl⟩
  | false => exact ⟨_, exec_br_of_not_taken h off, fun ht => absurd ht (by decide), fun _ => rfl, rfl⟩

/-- Settles O34: no condition code meets mask 000 and each meets mask 111; the zero word is BR with mask 000. -/
theorem branchNeverAndBranchAlways : Obligations.BranchNeverAndBranchAlways := by
  unfold Obligations.BranchNeverAndBranchAlways
  have hnever := fun off s => exec_br_of_not_taken (branchTaken_never s) off
  have hzero : decode 0x0000 = .br 0b000 0 := by decide
  exact ⟨hnever, fun off s => exec_br_of_taken (branchTaken_always s) off, fun s => hzero ▸ hnever 0 s⟩

/-- Settles O36: the call of R182. -/
theorem jsrSavesTheReturnAddressAndJumps : Obligations.JsrSavesTheReturnAddressAndJumps := by
  unfold Obligations.JsrSavesTheReturnAddressAndJumps
  refine ⟨fun _ hw hb => (decode_of_opcode_call hw).trans (if_pos hb), fun off s => ?_⟩
  obtain ⟨h7, hothers⟩ := call_leaves s (s.pc + off.signExtend 16)
  exact ⟨_, exec_jsr off s, h7, rfl, hothers, rfl⟩

/-- Settles O37: the call of R183, whose target is read after R7 is written. -/
theorem jsrrReadsTheBaseAfterWritingR7 : Obligations.JsrrReadsTheBaseAfterWritingR7 := by
  unfold Obligations.JsrrReadsTheBaseAfterWritingR7
  refine ⟨fun _ hw hb => (decode_of_opcode_call hw).trans (if_neg (Bool.eq_false_iff.mp hb)), fun base s => ?_⟩
  obtain ⟨h7, hothers⟩ := call_leaves s (if base = 7 then s.pc else s.getReg base)
  exact ⟨_, exec_jsrr base s, h7, rfl, hothers, rfl⟩

end

section
/-! PROOFS. Reset, the program load and the Input Relay (70_reset_and_hazards.md R260 and R262; 20_memory.md R70 and
R71). -/

namespace Sys2Proof.Machine

theorem getReg_resetWith (cfg : Config) (r : RegIdx) : (State.resetWith cfg).getReg r = cfg.gprReset := by
  simp [State.getReg, State.resetWith]

theorem cell_resetWith (cfg : Config) (a : Word) : (State.resetWith cfg).cell a = 0 := Memory.read_nil a.toNat

/-! ### The load -/

/-- R262: word `k` of an image is its bytes `2k` and `2k + 1`. -/
theorem imageWords_getElem (image : List Byte) (k : Nat) (h : 2 * k + 1 < image.length) :
    (imageWords image)[k]? = some (image[2 * k] ++ image[2 * k + 1]) := by
  induction image using imageWords.induct generalizing k with
  | case1 hi lo rest ih =>
    cases k with
    | zero => rfl
    | succ k => exact ih k (by simp only [List.length_cons] at h; omega)
  | case2 image hshort =>
    match image, hshort with
    | [], _ => simp at h
    | [b], _ => simp at h
    | hi :: lo :: rest, hshort => exact absurd rfl (hshort hi lo rest)

theorem imageWords_length (image : List Byte) : (imageWords image).length = image.length / 2 := by
  induction image using imageWords.induct with
  | case1 hi lo rest ih => simp only [imageWords, List.length_cons, ih]; omega
  | case2 image hshort =>
    match image, hshort with
    | [], _ => rfl
    | [b], _ => simp [imageWords]
    | hi :: lo :: rest, hshort => exact absurd rfl (hshort hi lo rest)

theorem loadWords_frame (a : Word) (ws : List Word) (s : State) :
    loadWords a ws s = { s with mem := (loadWords a ws s).mem } := by
  induction ws generalizing a s with
  | nil => rfl
  | cons w ws ih => rw [loadWords, ih]; rfl

/-- Addresses are counted on mod 2^16. -/
theorem addr_succ (a : Word) (k : Nat) : a + 1 + BitVec.ofNat 16 k = a + BitVec.ofNat 16 (k + 1) := by
  rw [BitVec.add_assoc, BitVec.ofNat_add, BitVec.add_comm (BitVec.ofNat 16 k)]
  rfl

/-- R262: the load touches no cell but its own. -/
theorem loadWords_cell_of_ne {ws : List Word} {s : State} (hs : s.mem.wf = true) {a b : Word}
    (h : ∀ k, k < ws.length → b ≠ a + BitVec.ofNat 16 k) : (loadWords a ws s).cell b = s.cell b := by
  induction ws generalizing a s with
  | nil => rfl
  | cons w ws ih =>
    have hfirst : b ≠ a := by simpa using h 0 (by simp)
    have hrest : ∀ k, k < ws.length → b ≠ a + 1 + BitVec.ofNat 16 k := fun k hk => by
      rw [addr_succ]
      exact h (k + 1) (by simpa using hk)
    rw [loadWords, ih (State.wf_setCell hs a w) hrest, State.cell_setCell hs, if_neg hfirst.symm]

/-- R262: up to 65,536 words go each to a cell of their own, so each stays as it was put. -/
theorem loadWords_cell {ws : List Word} {s : State} (hs : s.mem.wf = true) (hlen : ws.length ≤ 65536) (a : Word)
    (k : Nat) (hk : k < ws.length) : (loadWords a ws s).cell (a + BitVec.ofNat 16 k) = ws[k] := by
  induction ws generalizing a s k with
  | nil => simp at hk
  | cons w ws ih =>
    simp only [List.length_cons] at hlen hk
    have hwf := State.wf_setCell hs a w
    rw [loadWords]
    cases k with
    | zero =>
      have hlast : ∀ j, j < ws.length → a + BitVec.ofNat 16 0 ≠ a + 1 + BitVec.ofNat 16 j := fun j hj => by
        rw [addr_succ]
        bv_omega
      rw [loadWords_cell_of_ne hwf hlast, State.cell_setCell hs, if_pos (by simp)]
      rfl
    | succ k =>
      rw [← addr_succ]
      exact ih hwf (by omega) (a + 1) k (by omega)

theorem load_of_words {s : State} {image : List Byte} {origin : Word} {ws : List Word}
    (h : imageWords image = origin :: ws) : s.load image = .ok (loadWords origin ws s) := by
  rw [State.load, h]

/-- R262: the startup error is that of an image with no word. -/
theorem load_error_iff (s : State) (image : List Byte) :
    s.load image = .error .imageTooShort ↔ image.length < 2 := by
  have hlen := imageWords_length image
  cases h : imageWords image with
  | nil =>
    rw [h, List.length_nil] at hlen
    simp only [State.load, h, true_iff]
    omega
  | cons origin ws =>
    rw [h, List.length_cons] at hlen
    simp only [load_of_words h, reduceCtorEq, false_iff]
    omega

/-! ### The relay's list -/

/-- No step puts an action into the relay's list. -/
theorem step_relay {s t : State} (h : step s = .next t) : t.relay <:+ s.relay :=
  (stable_relay s.relay).step (fun u hu => by rwa [drain_relay]) (fun _ _ hu => hu) h List.suffix_rfl

end Sys2Proof.Machine

open Sys2Proof Sys2Proof.Machine

/-- Settles O58: the fields of the reset state, whose memory lists no cell. -/
theorem resetHasTheStatedValues : Obligations.ResetHasTheStatedValues := by
  unfold Obligations.ResetHasTheStatedValues
  exact ⟨getReg_resetWith _, rfl, rfl, rfl, rfl, rfl, cell_resetWith _, rfl,
    fun cfg r => ⟨getReg_resetWith cfg r, rfl⟩⟩

/-- Settles O59: words are pairs of bytes, and each stored word has a cell of its own. -/
theorem loadPlacesTheImage : Obligations.LoadPlacesTheImage := by
  unfold Obligations.LoadPlacesTheImage
  refine ⟨imageWords_getElem, imageWords_length, fun s image origin ws hs h hlen => ?_, load_error_iff⟩
  exact ⟨_, load_of_words h, loadWords_frame .., loadWords_cell hs hlen origin, fun _ ha => loadWords_cell_of_ne hs ha⟩

/-- Settles O60: the first action decides a point of the relay, and a step takes actions off the list's front only;
with none left, no key is pushed. -/
theorem relayPointTakesTheDueActions : Obligations.RelayPointTakesTheDueActions := by
  unfold Obligations.RelayPointTakesTheDueActions
  refine ⟨fun _ _ => rfl, fun _ => rfl, fun _ h => relayPoint_of_nil h, fun _ _ _ h => relayPoint_of_push h,
    fun _ _ h => relayPoint_of_halt h, fun _ _ h => relayPoint_of_pass h, fun _ _ h => step_relay h,
    fun s t h => ?_⟩
  have hrelay : t.relay = [] := List.suffix_nil.mp (step_relay h)
  have hkeys := step_pendingKeys h
  simp only [State.pendingKeys, hrelay, State.haltRequest_relay, comingKeys, List.append_nil] at hkeys
  exact ⟨hrelay, hkeys⟩

end

section
/-! PROOFS. GETC, IN and OUT: the look at Q, the wait and how it ends (44_trap.md R202, R203, R205 and R207). -/

namespace Sys2Proof.Machine

/-! ### One look and the wait, case by case -/

theorem keyNow_of_halted {s : State} (h : s.running = false) : s.keyNow = .halted s := if_pos h

theorem keyNow_of_key {s : State} {c : Word} {rest : List Word} (hrun : s.running = true) (hq : s.queue = c :: rest) :
    s.keyNow = .key c { s with queue := rest } := by
  simp [State.keyNow, hrun, hq]

theorem keyNow_of_empty {s : State} (hrun : s.running = true) (hq : s.queue = []) : s.keyNow = .holding s := by
  simp [State.keyNow, hrun, hq]

theorem awaitKey_of_halted {s : State} (h : s.running = false) (l : List RelayEvent) : awaitKey l s = .halted s := by
  cases l <;> simp [awaitKey, keyNow_of_halted h]

theorem awaitKey_of_key {s : State} {c : Word} {rest : List Word} (hrun : s.running = true)
    (hq : s.queue = c :: rest) (l : List RelayEvent) : awaitKey l s = .key c { s with queue := rest } := by
  cases l <;> simp [awaitKey, keyNow_of_key hrun hq]

theorem awaitKey_nil {s : State} (hrun : s.running = true) (hq : s.queue = []) : awaitKey [] s = .holding s :=
  keyNow_of_empty hrun hq

theorem awaitKey_cons {s : State} (hrun : s.running = true) (hq : s.queue = []) (e : RelayEvent)
    (l : List RelayEvent) : awaitKey (e :: l) s = awaitKey l (s.relayAct l e) := by
  rw [awaitKey, keyNow_of_empty hrun hq]

/-- Polls that find nothing only take their passes off the list. -/
theorem awaitKey_passes {s : State} (hrun : s.running = true) (hq : s.queue = []) (n : Nat) (l : List RelayEvent) :
    awaitKey (List.replicate n .pass ++ l) { s with relay := List.replicate n .pass ++ l } =
      awaitKey l { s with relay := l } := by
  induction n with
  | zero => rfl
  | succ n ih =>
    exact (awaitKey_cons (s := { s with relay := List.replicate (n + 1) .pass ++ l }) hrun hq .pass _).trans ih

/-- The point before the first look takes the first pass, the polls the others. -/
theorem awaitKey_after_passes {s : State} {n : Nat} {l : List RelayEvent} (hrun : s.running = true)
    (hq : s.queue = []) (hr : s.relay = List.replicate (n + 1) .pass ++ l) :
    awaitKey s.relayPoint.relay s.relayPoint = awaitKey l { s with relay := l } := by
  rw [List.replicate_succ, List.cons_append] at hr
  rw [relayPoint_of_pass hr]
  exact awaitKey_passes hrun hq n l

/-- R203: with Q empty and the relay idle, the wait holds. -/
theorem awaitKey_of_idle {s : State} (hrun : s.running = true) (hq : s.queue = []) (hr : s.relay = []) :
    awaitKey s.relayPoint.relay s.relayPoint = .holding s := by
  rw [relayPoint_of_nil hr, hr, awaitKey_nil hrun hq]

theorem resumeKey_of_key {s : State} {c : Word} {rest : List Word} (hq : s.queue = c :: rest) :
    resumeKey s = .key c { s with queue := rest } := by
  simp [resumeKey, hq]

theorem resumeKey_of_empty {s : State} (hq : s.queue = []) : resumeKey s = awaitKey s.relay s := by
  simp [resumeKey, hq]

/-! ### The services -/

theorem exec_trapGetc (s : State) :
    exec .trapGetc s = .next (getcEnd (awaitKey s.relayPoint.relay s.relayPoint)) := rfl

theorem exec_trapIn (s : State) : exec .trapIn s = .next (inEnd (awaitKey s.relayPoint.relay s.relayPoint)) := by
  rw [← inService_block]
  rfl

theorem exec_trapOut (s : State) : exec .trapOut s = .next (s.emit (s.getReg 0)) := rfl

theorem step_of_waitGetc {s : State} (h : s.activity = .waitGetc) : step s = .next (getcEnd (resumeKey s)) := by
  rw [step_eq, h]
  rfl

theorem step_of_waitIn {s : State} (h : s.activity = .waitIn) : step s = .next (inEnd (resumeKey s)) := by
  rw [step_eq, h]
  rfl

/-- A popped key goes to R0 and nowhere else. -/
theorem getcEnd_key_leaves (c : Word) (s : State) :
    (getcEnd (.key c s)).getReg 0 = c ∧ (∀ r, r ≠ 0 → (getcEnd (.key c s)).getReg r = s.getReg r) ∧
      getcEnd (.key c s) = { s with regs := (getcEnd (.key c s)).regs, activity := .betweenCycles } :=
  ⟨State.getReg_setReg_self .., fun _ hr => getReg_setReg_of_ne hr .., rfl⟩

/-- R205: IN outputs the popped key besides. -/
theorem inEnd_key_leaves (c : Word) (s : State) :
    (inEnd (.key c s)).getReg 0 = c ∧ (∀ r, r ≠ 0 → (inEnd (.key c s)).getReg r = s.getReg r) ∧
      inEnd (.key c s) =
        { s with regs := (inEnd (.key c s)).regs, output := s.output ++ [c], activity := .betweenCycles } :=
  ⟨State.getReg_setReg_self .., fun _ hr => getReg_setReg_of_ne hr .., rfl⟩

/-- R203, R232(d): a held wait that finds a key takes the oldest, whatever `running` is by now. -/
theorem step_wait_of_key {s : State} {c : Word} {rest : List Word} (ha : s.activity = .waitGetc ∨ s.activity = .waitIn)
    (hq : s.queue = c :: rest) :
    ∃ t, step s = .next t ∧ t.getReg 0 = c ∧
      t.output = (if s.activity = .waitIn then s.output ++ [c] else s.output) ∧
      (∀ r, r ≠ 0 → t.getReg r = s.getReg r) ∧
      t = { s with regs := t.regs, queue := rest, output := t.output, activity := .betweenCycles } := by
  rcases ha with ha | ha
  · rw [step_of_waitGetc ha, resumeKey_of_key hq, ha]
    obtain ⟨hkey, hothers, hframe⟩ := getcEnd_key_leaves c { s with queue := rest }
    exact ⟨_, rfl, hkey, rfl, hothers, hframe⟩
  · rw [step_of_waitIn ha, resumeKey_of_key hq, ha]
    obtain ⟨hkey, hothers, hframe⟩ := inEnd_key_leaves c { s with queue := rest }
    exact ⟨_, rfl, hkey, rfl, hothers, hframe⟩

/-- R203: a held wait with an empty Q ends with no pop when `running` is false. -/
theorem step_wait_of_halted {s : State} (ha : s.activity = .waitGetc ∨ s.activity = .waitIn) (hrun : s.running = false)
    (hq : s.queue = []) : step s = .next s.finish := by
  rcases ha with ha | ha
  · rw [step_of_waitGetc ha, resumeKey_of_empty hq, awaitKey_of_halted hrun]
    rfl
  · rw [step_of_waitIn ha, resumeKey_of_empty hq, awaitKey_of_halted hrun]
    rfl

/-- R203: a held wait holds while Q is empty, `running` true and the relay idle. -/
theorem step_wait_of_idle {s : State} (ha : s.activity = .waitGetc ∨ s.activity = .waitIn) (hrun : s.running = true)
    (hq : s.queue = []) (hr : s.relay = []) : step s = .next s := by
  rcases ha with ha | ha
  · rw [step_of_waitGetc ha, resumeKey_of_empty hq, hr, awaitKey_nil hrun hq, getcEnd, ← ha]
  · rw [step_of_waitIn ha, resumeKey_of_empty hq, hr, awaitKey_nil hrun hq, inEnd, ← ha]

theorem exec_trapGetc_of_idle {s : State} (hrun : s.running = true) (hq : s.queue = []) (hr : s.relay = []) :
    exec .trapGetc s = .next { s with activity := .waitGetc } := by
  rw [exec_trapGetc, awaitKey_of_idle hrun hq hr]
  rfl

theorem exec_trapIn_of_idle {s : State} (hrun : s.running = true) (hq : s.queue = []) (hr : s.relay = []) :
    exec .trapIn s = .next { s with activity := .waitIn } := by
  rw [exec_trapIn, awaitKey_of_idle hrun hq hr]
  rfl

/-- R232(d): a key pushed after some polls is what the wait takes; the halt request behind it is still to come. -/
theorem awaitKey_push_first {s : State} {n : Nat} {c : Word} {rest : List RelayEvent} (hrun : s.running = true)
    (hq : s.queue = []) (hr : s.relay = List.replicate (n + 1) .pass ++ .push c :: rest) :
    awaitKey s.relayPoint.relay s.relayPoint = .key c { s with relay := rest } := by
  have hkey : ({ s with relay := .push c :: rest }.relayAct rest (.push c)).queue = [c] := by
    simp [State.relayAct, hq]
  rw [awaitKey_after_passes hrun hq hr, awaitKey_cons (s := { s with relay := .push c :: rest }) hrun hq,
    awaitKey_of_key (by exact hrun) hkey]
  simp [State.relayAct, State.pushKey, hq]

/-- R232(d): a halt request that comes first ends the wait with no pop. -/
theorem awaitKey_halt_first {s : State} {n : Nat} {rest : List RelayEvent} (hrun : s.running = true)
    (hq : s.queue = []) (hr : s.relay = List.replicate (n + 1) .pass ++ .halt :: rest) :
    awaitKey s.relayPoint.relay s.relayPoint = .halted { s with running := false, relay := [] } := by
  rw [awaitKey_after_passes hrun hq hr, awaitKey_cons (s := { s with relay := .halt :: rest }) hrun hq,
    awaitKey_of_halted rfl]
  rfl

end Sys2Proof.Machine

open Sys2Proof Sys2Proof.Machine

/-- Settles O42: the first look pops the oldest key. -/
theorem getcPopsTheOldestKeyIntoR0 : Obligations.GetcPopsTheOldestKeyIntoR0 := by
  unfold Obligations.GetcPopsTheOldestKeyIntoR0
  intro s c rest hrun hr hq
  rw [exec_trapGetc, relayPoint_of_nil hr, awaitKey_of_key hrun hq]
  obtain ⟨hkey, hothers, hframe⟩ := getcEnd_key_leaves c { s with queue := rest }
  exact ⟨_, rfl, hkey, rfl, hothers, hframe⟩

/-- Settles O43: the first look pops the oldest key, and IN outputs it; the stub is the identity. -/
theorem inPopsAndEchoesTheOldestKey : Obligations.InPopsAndEchoesTheOldestKey := by
  unfold Obligations.InPopsAndEchoesTheOldestKey
  refine ⟨fun s c rest hrun hr hq => ?_, fun cfg s h => if_pos h⟩
  rw [exec_trapIn, relayPoint_of_nil hr, awaitKey_of_key hrun hq]
  obtain ⟨hkey, hothers, hframe⟩ := inEnd_key_leaves c { s with queue := rest }
  exact ⟨_, rfl, hkey, rfl, rfl, hothers, hframe⟩

/-- Settles O44: a held wait looks at Q first, then at `running`. -/
theorem waitHoldsUntilTheRelayActs : Obligations.WaitHoldsUntilTheRelayActs := by
  unfold Obligations.WaitHoldsUntilTheRelayActs
  refine ⟨fun s hrun hq hr => ⟨exec_trapGetc_of_idle hrun hq hr, exec_trapIn_of_idle hrun hq hr⟩,
    fun s hrun hq hr ha => ⟨step_wait_of_idle ha hrun hq hr, fun c => ?_, fun c => ?_, ?_⟩⟩
  · obtain ⟨t, hstep, hkey, hout, hothers, hframe⟩ :=
      step_wait_of_key (s := s.pushKey c) (c := c) (rest := []) ha (by simp [hq])
    exact ⟨t, hstep, hkey, by rw [hframe], hout, hothers, by rw [hframe]; simp [State.pushKey, hq]⟩
  · obtain ⟨t, hstep, hkey, hout, hothers, hframe⟩ :=
      step_wait_of_key (s := (s.pushKey c).haltRequest) (c := c) (rest := []) ha (by simp [hq])
    exact ⟨t, hstep, hkey, by rw [hframe], by rw [hframe]; rfl, hout, hothers,
      by rw [hframe]; simp [State.haltRequest, State.pushKey, hq, hr]⟩
  · rw [step_wait_of_halted (s := s.haltRequest) ha rfl hq]
    simp [State.finish, State.haltRequest, hr]

/-- Settles O45: the first look finds `running` false before it looks at Q. -/
theorem getcAndInReturnWithNoPopWhenHalted : Obligations.GetcAndInReturnWithNoPopWhenHalted := by
  unfold Obligations.GetcAndInReturnWithNoPopWhenHalted
  intro s hrun hr
  rw [exec_trapGetc, exec_trapIn, relayPoint_of_nil hr, awaitKey_of_halted hrun]
  exact ⟨rfl, rfl⟩

/-- Settles O46: the wait takes the relay's actions one at a time and looks after each. -/
theorem waitTakesRelayActionsInOrder : Obligations.WaitTakesRelayActionsInOrder := by
  unfold Obligations.WaitTakesRelayActionsInOrder
  refine fun s n c rest hrun hq => ⟨fun hr => ?_, fun hr => ?_⟩
  · rw [exec_trapGetc, exec_trapIn, awaitKey_push_first hrun hq hr]
    obtain ⟨hkey, hothers, hframe⟩ := getcEnd_key_leaves c { s with relay := .halt :: rest }
    obtain ⟨hkeyIn, hothersIn, hframeIn⟩ := inEnd_key_leaves c { s with relay := .halt :: rest }
    exact ⟨⟨_, rfl, hkey, hothers, hframe⟩, ⟨_, rfl, hkeyIn, hothersIn, hframeIn⟩⟩
  · rw [exec_trapGetc, exec_trapIn, awaitKey_halt_first hrun hq hr]
    exact ⟨rfl, rfl⟩

/-- Settles O47: OUT is the output of R0. -/
theorem outAppendsR0 : Obligations.OutAppendsR0 := by
  unfold Obligations.OutAppendsR0
  exact exec_trapOut

/-- Settles O53: the drain empties Q before GETC looks at it, and writes neither pc's cell nor a register. -/
theorem drainedKeyIsNotSeenByGetc : Obligations.DrainedKeyIsNotSeenByGetc := by
  unfold Obligations.DrainedKeyIsNotSeenByGetc
  intro s c hs ha hrun hr hq hready h1 h2 hi
  obtain ⟨hdata, hstatus⟩ := drain_device_cells hs hq hready
  have hdrain := drain_of_key hq hready
  have hpc : s.drain.pc = s.pc := drain_pc s
  have hfetch : s.drain.fetch = { s.drain with ir := s.cell s.pc, pc := s.pc + 1 } := by
    rw [fetch_of_ordinary (hpc ▸ h1) (hpc ▸ h2), hpc, drain_cell hs h1 h2]
  have hqueue : s.drain.queue = [] := by rw [hdrain]; rfl
  have hstep : step s = .next { s.drain with ir := s.cell s.pc, pc := s.pc + 1, activity := .waitGetc } := by
    rw [step_of_running ha hrun hr, hfetch, hi]
    exact exec_trapGetc_of_idle ((drain_running s).trans hrun) hqueue ((drain_relay s).trans hr)
  refine ⟨_, hstep, rfl, hqueue, hdata, by rw [hdrain]; rfl, ?_, State.getReg_congr (drain_regs s)⟩
  exact (congrArg (BitVec.getLsbD · 15) hstatus).trans (by simp)

end

section
/-! PROOFS. PUTS and PUTSP: a string in ordinary memory, a string of any length, a string with no end (44_trap.md
R204 and R206; 92_eei_decisions.md D20). -/

namespace Sys2Proof.Machine

/-! ### The words of a string in memory -/

/-- Word `k` of the string at an address, addresses counted mod 2^16. -/
def State.stringWord (s : State) (a : Word) (k : Nat) : Word := s.cell (a + BitVec.ofNat 16 k)

theorem stringWord_zero (s : State) (a : Word) : s.stringWord a 0 = s.cell a := by
  simp [State.stringWord]

theorem stringWord_succ (s : State) (a : Word) : s.stringWord (a + 1) = fun k => s.stringWord a (k + 1) :=
  funext fun k => congrArg s.cell (addr_succ a k)

theorem stringWord_emit (s : State) (c a : Word) : (s.emit c).stringWord a = s.stringWord a := rfl

/-- The addresses of words 0 to `n` of a string are no device register's. -/
def OrdinaryUpTo (n : Nat) (a : Word) : Prop :=
  ∀ k ≤ n, a + BitVec.ofNat 16 k ≠ kbsr ∧ a + BitVec.ofNat 16 k ≠ kbdr

theorem OrdinaryUpTo.tail {n : Nat} {a : Word} (h : OrdinaryUpTo (n + 1) a) : OrdinaryUpTo n (a + 1) := fun k hk => by
  rw [addr_succ]
  exact h (k + 1) (by omega)

/-- R59: the string's first word is read with no side effect. -/
theorem OrdinaryUpTo.read {n : Nat} {a : Word} (h : OrdinaryUpTo n a) (s : State) : s.blockRead a = (s.cell a, s) := by
  obtain ⟨h1, h2⟩ := h 0 (Nat.zero_le n)
  exact blockRead_ordinary (by simpa using h1) (by simpa using h2)

theorem map_range_succ {α : Type} (f : Nat → α) (n : Nat) :
    (List.range (n + 1)).map f = f 0 :: (List.range n).map fun k => f (k + 1) := by
  rw [List.range_succ_eq_map, List.map_cons, List.map_map]
  rfl

/-! ### PUTS -/

/-- The loop of PUTS over a string of `n` words in ordinary memory reads `n + 1` words. -/
theorem putsRun_of_ordinary {n : Nat} {a : Word} {s : State} (hord : OrdinaryUpTo n a)
    (hne : ∀ k < n, s.stringWord a k ≠ 0) (hend : s.stringWord a n = 0) :
    PutsRun (n + 1) a s { s with output := s.output ++ (List.range n).map (s.stringWord a) } := by
  have hread := hord.read s
  induction n generalizing a s with
  | zero =>
    have hrun := PutsRun.stop (a := a) (s := s) (by rw [hread, ← stringWord_zero]; exact hend)
    rw [hread] at hrun
    simpa using hrun
  | succ n ih =>
    have hfirst : (s.blockRead a).1 ≠ 0x0000 := by
      rw [hread, ← stringWord_zero]
      exact hne 0 (by omega)
    refine PutsRun.more hfirst ?_
    rw [hread, map_range_succ, stringWord_zero, ← stringWord_succ, List.append_cons]
    refine ih (s := s.emit (s.cell a)) hord.tail (fun k hk => ?_) ?_ (hord.tail.read _)
    · rw [stringWord_emit, stringWord_succ]
      exact hne (k + 1) (by omega)
    · rw [stringWord_emit, stringWord_succ]
      exact hend

theorem exec_trapPuts (s : State) : exec .trapPuts s = .next (putsLoop Config.wordsPerStep (s.getReg 0) s) := rfl

theorem step_of_puts {s : State} {a : Word} (h : s.activity = .puts a) :
    step s = .next (putsLoop Config.wordsPerStep a s) := by
  rw [step_eq, h]
  rfl

/-! ### PUTSP -/

/-- The characters of a packed word, low byte first. -/
def packedChars (w : Word) : List Word := [zext (lowByte w), zext (highByte w)]

/-- The characters of the word that ends a packed string. -/
def lastChars (w : Word) : List Word := if lowByte w = 0x00 then [] else [zext (lowByte w)]

theorem flatMap_range_succ {α : Type} (f : Nat → List α) (n : Nat) :
    (List.range (n + 1)).flatMap f = f 0 ++ (List.range n).flatMap fun k => f (k + 1) := by
  rw [List.range_succ_eq_map, List.flatMap_cons, List.flatMap_map]

/-- A word with a zero byte ends the loop of PUTSP, after its low byte if that is not zero. -/
theorem putspRun_of_last {a : Word} {s : State} (hread : s.blockRead a = (s.cell a, s))
    (h : lowByte (s.cell a) = 0x00 ∨ highByte (s.cell a) = 0x00) :
    PutspRun 1 a s { s with output := s.output ++ lastChars (s.cell a) } := by
  by_cases hlow : lowByte (s.cell a) = 0x00
  · have hrun := PutspRun.stopLow (a := a) (s := s) (by rwa [hread])
    rw [hread] at hrun
    simpa [lastChars, hlow] using hrun
  · have hrun := PutspRun.stopHigh (a := a) (s := s) (by rwa [hread]) (by rw [hread]; exact h.resolve_left hlow)
    rw [hread] at hrun
    rw [lastChars, if_neg hlow]
    exact hrun

/-- The loop of PUTSP over a packed string in ordinary memory whose word `n` is the first with a zero byte. -/
theorem putspRun_of_ordinary {n : Nat} {a : Word} {s : State} (hord : OrdinaryUpTo n a)
    (hne : ∀ k < n, lowByte (s.stringWord a k) ≠ 0x00 ∧ highByte (s.stringWord a k) ≠ 0x00)
    (hend : lowByte (s.stringWord a n) = 0x00 ∨ highByte (s.stringWord a n) = 0x00) :
    PutspRun (n + 1) a s { s with
      output := s.output ++ (List.range n).flatMap (fun k => packedChars (s.stringWord a k)) ++
        lastChars (s.stringWord a n) } := by
  have hread := hord.read s
  induction n generalizing a s with
  | zero =>
    rw [stringWord_zero] at hend ⊢
    simpa using putspRun_of_last hread hend
  | succ n ih =>
    obtain ⟨hlow, hhigh⟩ := hne 0 (by omega)
    rw [stringWord_zero] at hlow hhigh
    refine PutspRun.more (by rwa [hread]) (by rwa [hread]) ?_
    rw [hread]
    have hrest := ih (s := (s.emit (zext (lowByte (s.cell a)))).emit (zext (highByte (s.cell a)))) hord.tail
      (fun k hk => by rw [stringWord_emit, stringWord_emit, stringWord_succ]; exact hne (k + 1) (by omega))
      (by rw [stringWord_emit, stringWord_emit, stringWord_succ]; exact hend) (hord.tail.read _)
    rw [stringWord_emit, stringWord_emit, stringWord_succ] at hrest
    simpa [flatMap_range_succ, packedChars, stringWord_zero] using hrest

theorem exec_trapPutsp (s : State) : exec .trapPutsp s = .next (putspLoop Config.wordsPerStep (s.getReg 0) s) := by
  show Host.Outcome.next (putspService Config.block s) = _
  rw [putspService_block]
  rfl

theorem step_of_putsp {s : State} {a : Word} (h : s.activity = .putsp a) :
    step s = .next (putspLoop Config.wordsPerStep a s) := by
  rw [step_eq, h]
  rfl

/-! ### Strings of any length, and strings with no end -/

/-- What PUTS and PUTSP have in common: an unbounded loop, the loop of one step, and the activity between two. -/
structure CutLoop (run : Nat → Word → State → State → Prop) (loop : Nat → Word → State → State)
    (act : Word → Activity) : Prop where
  /-- A run reads a word at least. -/
  pos : ∀ {n a s t}, run n a s t → 0 < n
  /-- A run that fits is done by the bounded loop. -/
  fits : ∀ {n a s t}, run n a s t → ∀ {m}, n ≤ m → loop m a s = t.finish
  /-- The bounded loop does a run, or stops with the rest of every run still to do. -/
  cut : ∀ m a s, (∃ n t, n ≤ m ∧ run n a s t ∧ loop m a s = t.finish) ∨
    (∃ b u, loop m a s = { u with activity := act b } ∧ ∀ n t, run n a s t ↔ m < n ∧ run (n - m) b u t)
  /-- A run does not look at the activity. -/
  withActivity : ∀ {n a s t}, run n a s t → ∀ x, run n a { s with activity := x } { t with activity := x }
  /-- The next step goes on with the loop. -/
  resume : ∀ {s a}, s.activity = act a → step s = .next (loop Config.wordsPerStep a s)

theorem cutLoop_puts : CutLoop PutsRun putsLoop .puts where
  pos h := by cases h <;> omega
  fits h _ hm := h.loop hm
  cut := putsLoop_cases
  withActivity h := h.withActivity
  resume h := step_of_puts h

theorem cutLoop_putsp : CutLoop PutspRun putspLoop .putsp where
  pos h := by cases h <;> omega
  fits h _ hm := h.loop hm
  cut := putspLoop_cases
  withActivity h := h.withActivity
  resume h := step_of_putsp h

/-- The block is inside a string whose loop never ends. -/
def InEndlessString (run : Nat → Word → State → State → Prop) (act : Word → Activity) (s : State) : Prop :=
  ∃ a, s.activity = act a ∧ ∀ n t, ¬ run n a s t

section
variable {run : Nat → Word → State → State → Prop} {loop : Nat → Word → State → State} {act : Word → Activity}

/-- A loop that ends is finished by its first step and enough further ones. -/
theorem CutLoop.finishes (hc : CutLoop run loop act) {n : Nat} {a : Word} {s t : State} (h : run n a s t) :
    ∃ k, StepsTo k (loop Config.wordsPerStep a s) t.finish := by
  induction n using Nat.strong_induction_on generalizing a s t with
  | _ n ih =>
    obtain ⟨n', t', -, h', hloop⟩ | ⟨b, u, hloop, hrest⟩ := hc.cut Config.wordsPerStep a s
    · have hends : t'.finish = t.finish :=
        (hc.fits h' (Nat.le_max_left n' n)).symm.trans (hc.fits h (Nat.le_max_right n' n))
      exact ⟨0, hloop.trans hends⟩
    · obtain ⟨hlong, hu⟩ := (hrest n t).mp h
      obtain ⟨k, hk⟩ := ih (n - Config.wordsPerStep) (Nat.sub_lt_of_pos_le (by decide) hlong.le)
        (hc.withActivity hu (act b))
      rw [hloop]
      exact ⟨k + 1, _, hc.resume rfl, hk⟩

/-- D20: a bounded loop in an endless string stops inside an endless string. -/
theorem CutLoop.endless (hc : CutLoop run loop act) {a : Word} {s : State} (h : ∀ n t, ¬ run n a s t) (m : Nat) :
    InEndlessString run act (loop m a s) := by
  obtain ⟨n, t, -, hrun, -⟩ | ⟨b, u, hloop, hrest⟩ := hc.cut m a s
  · exact absurd hrun (h n t)
  · rw [hloop]
    refine ⟨b, rfl, fun n t hrun => ?_⟩
    have hpos := hc.pos hrun
    have hu := hc.withActivity hrun u.activity
    exact h (n + m) _ ((hrest _ _).mpr ⟨by omega, by rwa [Nat.add_sub_cancel]⟩)

theorem CutLoop.step_endless (hc : CutLoop run loop act) {s : State} (h : InEndlessString run act s) :
    ∃ t, step s = .next t ∧ InEndlessString run act t := by
  obtain ⟨a, ha, hend⟩ := h
  exact ⟨_, hc.resume ha, hc.endless hend _⟩

/-- D20: any number of steps into an endless string, the block is still inside it. -/
theorem CutLoop.steps_endless (hc : CutLoop run loop act) (k : Nat) {s : State} (h : InEndlessString run act s) :
    ∃ t a, StepsTo k s t ∧ t.activity = act a := by
  induction k generalizing s with
  | zero =>
    obtain ⟨a, ha, -⟩ := h
    exact ⟨s, a, rfl, ha⟩
  | succ k ih =>
    obtain ⟨u, hstep, hu⟩ := hc.step_endless h
    obtain ⟨t, a, hsteps, ha⟩ := ih hu
    exact ⟨t, a, ⟨u, hstep, hsteps⟩, ha⟩

end

end Sys2Proof.Machine

open Sys2Proof Sys2Proof.Machine

/-- Settles O49: the loop's run over ordinary memory fits in one step. -/
theorem putsOutputsTheWordsBeforeTheZeroWord : Obligations.PutsOutputsTheWordsBeforeTheZeroWord := by
  unfold Obligations.PutsOutputsTheWordsBeforeTheZeroWord
  intro s n hn hord hne hend
  rw [exec_trapPuts, (putsRun_of_ordinary hord hne hend).loop (m := Config.wordsPerStep) hn]
  rfl

/-- Settles O50: as PUTS, two characters a word; the stub is the identity. -/
theorem putspOutputsTheBytesBeforeTheZeroByte : Obligations.PutspOutputsTheBytesBeforeTheZeroByte := by
  unfold Obligations.PutspOutputsTheBytesBeforeTheZeroByte
  refine ⟨fun s n hn hord hne hend => ?_, fun cfg s h => if_pos h⟩
  rw [exec_trapPutsp, (putspRun_of_ordinary hord hne hend).loop (m := Config.wordsPerStep) hn]
  rfl

/-- Settles O51: each step takes a bounded number of words off the run that is left. -/
theorem everyTerminatedStringIsFinished : Obligations.EveryTerminatedStringIsFinished := by
  unfold Obligations.EveryTerminatedStringIsFinished
  refine ⟨fun s t n h => ?_, fun s t n h => ?_⟩
  · obtain ⟨k, hk⟩ := cutLoop_puts.finishes h
    exact ⟨_, k, exec_trapPuts s, hk⟩
  · obtain ⟨k, hk⟩ := cutLoop_putsp.finishes h
    exact ⟨_, k, exec_trapPutsp s, hk⟩

/-- Settles O52: a step inside an endless string leaves the block inside an endless string. -/
theorem unterminatedStringNeverEnds : Obligations.UnterminatedStringNeverEnds := by
  unfold Obligations.UnterminatedStringNeverEnds
  exact ⟨fun s h => ⟨_, exec_trapPuts s, fun k => cutLoop_puts.steps_endless k (cutLoop_puts.endless h _)⟩,
    fun s h => ⟨_, exec_trapPutsp s, fun k => cutLoop_putsp.steps_endless k (cutLoop_putsp.endless h _)⟩⟩

end

section
/-! PROOFS. What the trap services leave alone (44_trap.md R201), and who writes the registers, cc, pc and `running`
(10_state.md R21, R24, R27 and R29). -/

namespace Sys2Proof.Machine

/-! ### Properties kept by the services -/

/-- What a property of states must survive so that it survives GETC. -/
structure WaitStable (P : State → Prop) : Prop where
  keys : ∀ s running queue relay, P s → P { s with running := running, queue := queue, relay := relay }
  setR0 : ∀ s c, P s → P (s.setReg 0#3 c)
  turn : ∀ s act, P s → P { s with activity := act }

/-- What a property of states must survive so that it survives every trap service. -/
structure ServiceStable (P : State → Prop) : Prop extends StringStable P, WaitStable P

/-- The wait changes `running`, Q and the relay's list alone. -/
theorem WaitStable.awaitKey {P : State → Prop} (hP : WaitStable P) {s : State} (h : P s) :
    (awaitKey s.relayPoint.relay s.relayPoint).Holds P := by
  obtain ⟨u, hu, -, -, hends⟩ := awaitKey_cases s.relayPoint.relay s.relayPoint rfl
  have hpoint : P s.relayPoint := relayPoint_eq s ▸ hP.keys s _ _ _ h
  have hPu : P u := hu ▸ hP.keys s.relayPoint _ _ _ hpoint
  obtain ⟨c, rest, -, -, he⟩ | ⟨-, he⟩ | ⟨-, -, -, he⟩ := hends <;> rw [he]
  · exact hP.keys u u.running rest u.relay hPu
  · exact hPu
  · exact hPu

theorem WaitStable.getcService {P : State → Prop} (hP : WaitStable P) {s : State} (h : P s) : P (getcService s) := by
  have hends := hP.awaitKey h
  unfold Machine.getcService
  cases he : Machine.awaitKey s.relayPoint.relay s.relayPoint <;> rw [he] at hends
  · exact hP.turn _ _ (hP.setR0 _ _ hends)
  · exact hP.turn _ _ hends
  · exact hP.turn _ _ hends

/-- IN's end is GETC's with an output. -/
theorem WaitStable.inService {P : State → Prop} (hP : WaitStable P) (emit : ∀ s c, P s → P (s.emit c)) {s : State}
    (h : P s) : P (inService Config.block s) := by
  have hends := hP.awaitKey h
  rw [inService_block]
  cases he : Machine.awaitKey s.relayPoint.relay s.relayPoint <;> rw [he] at hends
  · exact hP.turn _ _ (emit _ _ (hP.setR0 _ _ hends))
  · exact hP.turn _ _ hends
  · exact hP.turn _ _ hends

/-- What a trap answers, by its vector. -/
theorem trap_cases {v : Byte} {s t : State} (h : exec (decodeTrap v) s = .next t) :
    (isServiceVector v = false ∧ t = s) ∨ (v = 0x20 ∧ t = getcService s) ∨ (v = 0x21 ∧ t = s.emit (s.getReg 0)) ∨
      (v = 0x22 ∧ t = putsLoop Config.wordsPerStep (s.getReg 0) s) ∨ (v = 0x23 ∧ t = inService Config.block s) ∨
      (v = 0x24 ∧ t = putspLoop Config.wordsPerStep (s.getReg 0) s) ∨ (v = 0x25 ∧ t = { s with running := false }) := by
  obtain hv | rfl | rfl | rfl | rfl | rfl | rfl := vector_cases v
  · rw [decodeTrap_of_unknown hv, exec_trap_of_unknown hv] at h
    cases h
    exact .inl ⟨hv, rfl⟩
  · cases h; exact .inr (.inl ⟨rfl, rfl⟩)
  · cases h; exact .inr (.inr (.inl ⟨rfl, rfl⟩))
  · cases h; exact .inr (.inr (.inr (.inl ⟨rfl, rfl⟩)))
  · cases h; exact .inr (.inr (.inr (.inr (.inl ⟨rfl, rfl⟩))))
  · cases (exec_trapPutsp s).symm.trans h; exact .inr (.inr (.inr (.inr (.inr (.inl ⟨rfl, rfl⟩)))))
  · cases h; exact .inr (.inr (.inr (.inr (.inr (.inr ⟨rfl, rfl⟩)))))

theorem ServiceStable.trap {P : State → Prop} (hP : ServiceStable P) {v : Byte} {s t : State}
    (h : exec (decodeTrap v) s = .next t) (hs : P s) : P t := by
  obtain ⟨-, rfl⟩ | ⟨-, rfl⟩ | ⟨-, rfl⟩ | ⟨-, rfl⟩ | ⟨-, rfl⟩ | ⟨-, rfl⟩ | ⟨-, rfl⟩ := trap_cases h
  · exact hs
  · exact hP.toWaitStable.getcService hs
  · exact hP.emit _ _ hs
  · exact putsLoop_stable hP.toStringStable _ hs
  · exact hP.toWaitStable.inService hP.emit hs
  · exact putspLoop_stable hP.toStringStable _ hs
  · exact hP.keys s false s.queue s.relay hs

theorem serviceStable_pc (v : Word) : ServiceStable fun s => s.pc = v :=
  { stable_pc v with keys := fun _ _ _ _ h => h, setR0 := fun _ _ h => h }

theorem serviceStable_cc (v : CondCode) : ServiceStable fun s => s.cc = v :=
  { stable_cc v with keys := fun _ _ _ _ h => h, setR0 := fun _ _ h => h }

theorem serviceStable_ir (v : Word) : ServiceStable fun s => s.ir = v :=
  { stable_ir v with keys := fun _ _ _ _ h => h, setR0 := fun _ _ h => h }

theorem serviceStable_cell {b : Word} (h1 : b ≠ kbsr) (h2 : b ≠ kbdr) (v : Word) :
    ServiceStable fun s => s.mem.wf = true ∧ s.cell b = v :=
  { stable_cell h1 h2 v with keys := fun _ _ _ _ h => h, setR0 := fun _ _ h => h }

/-- R201: every register but R0 is left by every service. -/
theorem serviceStable_getReg {r : RegIdx} (hr : r ≠ 0) (v : Word) : ServiceStable fun s => s.getReg r = v where
  read s a h := (blockRead_getReg s a r).trans h
  emit _ _ h := h
  turn _ _ h := h
  keys _ _ _ _ h := h
  setR0 s c h := (getReg_setReg_of_ne hr s c).trans h

/-- GETC and IN leave memory and `kb_avail`. -/
theorem waitStable_mem (m : Memory) (k : Bool) : WaitStable fun s => s.mem = m ∧ s.kbAvail = k :=
  ⟨fun _ _ _ _ h => h, fun _ _ h => h, fun _ _ h => h⟩

/-- GETC has no echo. -/
theorem waitStable_output (l : List Word) : WaitStable fun s => s.output = l :=
  ⟨fun _ _ _ _ h => h, fun _ _ h => h, fun _ _ h => h⟩

/-- R201: only GETC and IN write R0. -/
theorem trap_regs {v : Byte} {s t : State} (h : exec (decodeTrap v) s = .next t) (hgetc : v ≠ 0x20) (hin : v ≠ 0x23) :
    t.regs = s.regs := by
  obtain ⟨-, rfl⟩ | ⟨hv, -⟩ | ⟨-, rfl⟩ | ⟨-, rfl⟩ | ⟨hv, -⟩ | ⟨-, rfl⟩ | ⟨-, rfl⟩ := trap_cases h
  · rfl
  · exact absurd hv hgetc
  · rfl
  · exact putsLoop_stable (stable_regs s.regs) _ rfl
  · exact absurd hv hin
  · exact putspLoop_stable (stable_regs s.regs) _ rfl
  · rfl

/-- R201: only the status and data reads of PUTS and PUTSP touch memory and `kb_avail`. -/
theorem trap_mem {v : Byte} {s t : State} (h : exec (decodeTrap v) s = .next t) (hputs : v ≠ 0x22) (hputsp : v ≠ 0x24) :
    t.mem = s.mem ∧ t.kbAvail = s.kbAvail := by
  obtain ⟨-, rfl⟩ | ⟨-, rfl⟩ | ⟨-, rfl⟩ | ⟨hv, -⟩ | ⟨-, rfl⟩ | ⟨hv, -⟩ | ⟨-, rfl⟩ := trap_cases h
  · exact ⟨rfl, rfl⟩
  · exact (waitStable_mem s.mem s.kbAvail).getcService ⟨rfl, rfl⟩
  · exact ⟨rfl, rfl⟩
  · exact absurd hv hputs
  · exact (waitStable_mem s.mem s.kbAvail).inService (fun _ _ hs => hs) ⟨rfl, rfl⟩
  · exact absurd hv hputsp
  · exact ⟨rfl, rfl⟩

/-- R201: only the services that read a key or a string touch Q, and besides them only HALT clears `running`. -/
theorem trap_queue {v : Byte} {s t : State} (h : exec (decodeTrap v) s = .next t) (hgetc : v ≠ 0x20)
    (hputs : v ≠ 0x22) (hin : v ≠ 0x23) (hputsp : v ≠ 0x24) :
    t.queue = s.queue ∧ (v ≠ 0x25 → t.running = s.running) := by
  obtain ⟨-, rfl⟩ | ⟨hv, -⟩ | ⟨-, rfl⟩ | ⟨hv, -⟩ | ⟨hv, -⟩ | ⟨hv, -⟩ | ⟨hv, rfl⟩ := trap_cases h
  · exact ⟨rfl, fun _ => rfl⟩
  · exact absurd hv hgetc
  · exact ⟨rfl, fun _ => rfl⟩
  · exact absurd hv hputs
  · exact absurd hv hin
  · exact absurd hv hputsp
  · exact ⟨rfl, fun hhalt => absurd hv hhalt⟩

/-- R201: only the services whose rule says so output. -/
theorem trap_output {v : Byte} {s t : State} (h : exec (decodeTrap v) s = .next t) (hout : v ≠ 0x21)
    (hputs : v ≠ 0x22) (hin : v ≠ 0x23) (hputsp : v ≠ 0x24) : t.output = s.output := by
  obtain ⟨-, rfl⟩ | ⟨-, rfl⟩ | ⟨hv, -⟩ | ⟨hv, -⟩ | ⟨hv, -⟩ | ⟨hv, -⟩ | ⟨-, rfl⟩ := trap_cases h
  · rfl
  · exact (waitStable_output s.output).getcService rfl
  · exact absurd hv hout
  · exact absurd hv hputs
  · exact absurd hv hin
  · exact absurd hv hputsp
  · rfl

/-! ### `running` -/

/-- The relay has no halt request to make and `running` has this value. -/
def NoHaltAhead (b : Bool) (s : State) : Prop := .halt ∉ s.relay ∧ s.running = b

theorem NoHaltAhead.relayAct {b : Bool} {s : State} {e : RelayEvent} {rest : List RelayEvent}
    (h : NoHaltAhead b s) (he : s.relay = e :: rest) : NoHaltAhead b (s.relayAct rest e) := by
  obtain ⟨hnot, hrun⟩ := h
  rw [he, List.mem_cons, not_or] at hnot
  cases e with
  | push c => exact ⟨hnot.2, hrun⟩
  | halt => exact absurd rfl hnot.1
  | pass => exact ⟨hnot.2, hrun⟩

theorem NoHaltAhead.relayRun {b : Bool} {l : List RelayEvent} {s : State} (h : NoHaltAhead b s) (hl : s.relay = l) :
    NoHaltAhead b (relayRun l s) := by
  induction l generalizing s with
  | nil => exact ⟨List.not_mem_nil, h.2⟩
  | cons e l ih =>
    have hact := h.relayAct hl
    cases e with
    | push c => exact ih hact rfl
    | halt => exact hact
    | pass => exact hact

theorem NoHaltAhead.relayPoint {b : Bool} {s : State} (h : NoHaltAhead b s) : NoHaltAhead b s.relayPoint :=
  h.relayRun rfl

theorem NoHaltAhead.blockRead {b : Bool} {s : State} (h : NoHaltAhead b s) (a : Word) :
    NoHaltAhead b (s.blockRead a).2 := by
  unfold State.blockRead
  rw [memRead_eq]
  split
  · exact h.relayPoint
  · exact h

theorem NoHaltAhead.drainFetch {b : Bool} {s : State} (h : NoHaltAhead b s) : NoHaltAhead b s.drainFetch := by
  have hdrain : NoHaltAhead b s.relayPoint.drain := by
    rw [drain_eq]
    exact h.relayPoint
  exact hdrain.blockRead s.relayPoint.drain.pc

theorem stable_noHaltAhead (b : Bool) : StringStable (NoHaltAhead b) :=
  ⟨fun _ a h => h.blockRead a, fun _ _ h => h, fun _ _ h => h⟩

theorem NoHaltAhead.awaitKey {b : Bool} {l : List RelayEvent} {s : State} (h : NoHaltAhead b s) (hl : s.relay = l) :
    (awaitKey l s).Holds (NoHaltAhead b) := by
  cases hrun : s.running with
  | false => rw [awaitKey_of_halted hrun]; exact h
  | true =>
    induction l generalizing s with
    | nil =>
      cases hq : s.queue with
      | nil => rw [awaitKey_nil hrun hq]; exact h
      | cons c rest => rw [awaitKey_of_key hrun hq]; exact h
    | cons e l ih =>
      cases hq : s.queue with
      | nil =>
        rw [awaitKey_cons hrun hq]
        have hact := h.relayAct hl
        exact ih hact (by cases e with | halt => exact absurd (hl ▸ List.mem_cons_self) h.1 | _ => rfl)
          (hact.2.trans (h.2.symm.trans hrun))
      | cons c rest => rw [awaitKey_of_key hrun hq]; exact h

theorem NoHaltAhead.resumeKey {b : Bool} {s : State} (h : NoHaltAhead b s) : (resumeKey s).Holds (NoHaltAhead b) := by
  obtain ⟨c, rest, -, he⟩ | ⟨-, he⟩ := resumeKey_cases s <;> rw [he]
  · exact h
  · exact h.awaitKey rfl

theorem NoHaltAhead.getcEnd {b : Bool} {w : KeyWait} (h : w.Holds (NoHaltAhead b)) : NoHaltAhead b (getcEnd w) := by
  cases w <;> exact h

theorem NoHaltAhead.inEnd {b : Bool} {w : KeyWait} (h : w.Holds (NoHaltAhead b)) : NoHaltAhead b (inEnd w) := by
  cases w <;> exact h

/-- R29: without a halt request to come, no trap but HALT changes `running`. -/
theorem NoHaltAhead.trap {b : Bool} {v : Byte} {s t : State} (hs : NoHaltAhead b s)
    (h : exec (decodeTrap v) s = .next t) (hv : v ≠ 0x25) : NoHaltAhead b t := by
  obtain ⟨-, rfl⟩ | ⟨-, rfl⟩ | ⟨-, rfl⟩ | ⟨-, rfl⟩ | ⟨-, rfl⟩ | ⟨-, rfl⟩ | ⟨hhalt, -⟩ := trap_cases h
  · exact hs
  · exact NoHaltAhead.getcEnd (hs.relayPoint.awaitKey rfl)
  · exact hs
  · exact putsLoop_stable (stable_noHaltAhead b) _ hs
  · rw [inService_block]
    exact NoHaltAhead.inEnd (hs.relayPoint.awaitKey rfl)
  · exact putspLoop_stable (stable_noHaltAhead b) _ hs
  · exact absurd hhalt hv

/-- R29: without a halt request to come, no instruction but HALT changes `running`. -/
theorem NoHaltAhead.exec {b : Bool} {i : Instr} {s t : State} (hs : NoHaltAhead b s) (hi : i.wellFormed = true)
    (hhalt : i ≠ .trapHalt) (h : exec i s = .next t) : NoHaltAhead b t := by
  cases i with
  | trapHalt => exact absurd rfl hhalt
  | trap v =>
    refine hs.trap ((exec_decodeTrap v s).trans h) ?_
    rintro rfl
    cases hi
  | trapGetc => exact hs.trap (v := 0x20) h (by decide)
  | trapOut => exact hs.trap (v := 0x21) h (by decide)
  | trapPuts => exact hs.trap (v := 0x22) h (by decide)
  | trapIn => exact hs.trap (v := 0x23) h (by decide)
  | trapPutsp => exact hs.trap (v := 0x24) h (by decide)
  | br mask off => cases h; split <;> exact hs
  | ld | ldr | sti => cases h; exact hs.blockRead _
  | ldi => cases h; exact (hs.blockRead _).blockRead _
  | _ => cases h; exact hs

/-- R29: without a halt request to come, a step that does not dispatch HALT leaves `running`. -/
theorem NoHaltAhead.step {b : Bool} {s t : State} (hs : NoHaltAhead b s)
    (hhalt : s.activity = .betweenCycles → decode s.relayPoint.drainFetch.ir ≠ .trapHalt) (h : step s = .next t) :
    NoHaltAhead b t := by
  rw [step_eq] at h
  cases ha : s.activity <;> rw [ha] at h
  case betweenCycles =>
    dsimp only at h
    split at h
    · exact hs.relayPoint.drainFetch.exec (decode_wellFormed _) (hhalt ha) h
    · cases h; exact hs.relayPoint
  case waitGetc => cases h; exact NoHaltAhead.getcEnd hs.resumeKey
  case waitIn => cases h; exact NoHaltAhead.inEnd hs.resumeKey
  case puts a => cases h; exact putsLoop_stable (stable_noHaltAhead b) _ hs
  case putsp a => cases h; exact putspLoop_stable (stable_noHaltAhead b) _ hs
  case runOver => cases h; exact hs

/-- R29: nothing sets `running`. -/
theorem opStable_halted : OpStable fun s => s.running = false where
  setReg _ _ _ h := h
  setFlags _ _ h := h
  setPc _ _ h := h
  read := stable_halted.read
  write _ _ _ h := h
  emit _ _ h := h
  turn _ _ h := h
  stop _ _ := rfl
  relay s e rest _ h := by
    cases e with
    | push c => exact h
    | halt => rfl
    | pass => exact h
  pop _ _ _ _ h := h

theorem step_halted {s t : State} (h : step s = .next t) (hs : s.running = false) : t.running = false :=
  opStable_halted.step (fun u hu => (drain_running u).trans hu) (fun _ _ hu => hu) h hs

/-! ### Registers, cc and pc -/

theorem exec_getReg {i : Instr} {s t : State} (h : exec i s = .next t) {r : RegIdx} (hr : writesReg i ≠ some r)
    (hi : i.wellFormed = true) : t.getReg r = s.getReg r := by
  have hne {q : RegIdx} (hq : writesReg i = some q) : r ≠ q := fun e => hr (hq.trans (congrArg some e.symm))
  cases i with
  | addReg | addImm | not | lea => cases h; exact getReg_setResult_of_ne (hne rfl) ..
  | ld | ldr => cases h; exact getReg_loadInto_of_ne (hne rfl) ..
  | ldi => cases h; exact (getReg_loadInto_of_ne (hne rfl) ..).trans (blockRead_getReg ..)
  | andReg | andImm => cases h; exact getReg_setReg_of_ne (hne rfl) ..
  | jsr | jsrr => cases h; exact getReg_setReg_of_ne (hne rfl) ..
  | sti => cases h; exact blockRead_getReg ..
  | br mask off => cases h; split <;> rfl
  | trap v =>
    rw [exec_trap_of_unknown (by simpa [Instr.wellFormed] using hi)] at h
    cases h; rfl
  | trapGetc => exact (serviceStable_getReg (hne rfl) _).trap (v := 0x20) h rfl
  | trapIn => exact (serviceStable_getReg (hne rfl) _).trap (v := 0x23) h rfl
  | trapOut => exact State.getReg_congr (trap_regs (v := 0x21) h (by decide) (by decide)) r
  | trapPuts => exact State.getReg_congr (trap_regs (v := 0x22) h (by decide) (by decide)) r
  | trapPutsp => exact State.getReg_congr (trap_regs (v := 0x24) h (by decide) (by decide)) r
  | trapHalt => exact State.getReg_congr (trap_regs (v := 0x25) h (by decide) (by decide)) r
  | _ => cases h; rfl

theorem exec_cc {i : Instr} {s t : State} (h : exec i s = .next t) (hi : writesCC i = false) : t.cc = s.cc := by
  cases i with
  | addReg | addImm | ld | ldr | ldi | not | lea => cases hi
  | sti => cases h; exact blockRead_cc ..
  | br mask off => cases h; split <;> rfl
  | trap v => exact (serviceStable_cc _).trap ((exec_decodeTrap v s).trans h) rfl
  | trapGetc => exact (serviceStable_cc _).trap (v := 0x20) h rfl
  | trapOut => exact (serviceStable_cc _).trap (v := 0x21) h rfl
  | trapPuts => exact (serviceStable_cc _).trap (v := 0x22) h rfl
  | trapIn => exact (serviceStable_cc _).trap (v := 0x23) h rfl
  | trapPutsp => exact (serviceStable_cc _).trap (v := 0x24) h rfl
  | _ => cases h; rfl

/-- R140: the flags of a written result are those of its register. -/
theorem setResult_cc_getReg (s : State) (dr : RegIdx) (v : Word) :
    (s.setResult dr v).cc = ccOf ((s.setResult dr v).getReg dr) := rfl

/-- R27: the six instructions that write cc write it from their result. -/
theorem exec_cc_of_writesCC {i : Instr} {s t : State} (h : exec i s = .next t) (hi : writesCC i = true) :
    ∃ dr, writesReg i = some dr ∧ t.cc = ccOf (t.getReg dr) := by
  cases i with
  | addReg | addImm | not | lea => cases h; exact ⟨_, rfl, setResult_cc_getReg ..⟩
  | ld | ldr | ldi => cases h; exact ⟨_, rfl, loadInto_cc ..⟩
  | _ => cases hi

theorem exec_pc {i : Instr} {s t : State} (h : exec i s = .next t) (hi : writesPc i = false) : t.pc = s.pc := by
  cases i with
  | br | jmp | ret | jsr | jsrr => cases hi
  | ld | ldr | sti => cases h; exact blockRead_pc ..
  | ldi => cases h; exact (blockRead_pc ..).trans (blockRead_pc ..)
  | trap v => exact (serviceStable_pc _).trap ((exec_decodeTrap v s).trans h) rfl
  | trapGetc => exact (serviceStable_pc _).trap (v := 0x20) h rfl
  | trapOut => exact (serviceStable_pc _).trap (v := 0x21) h rfl
  | trapPuts => exact (serviceStable_pc _).trap (v := 0x22) h rfl
  | trapIn => exact (serviceStable_pc _).trap (v := 0x23) h rfl
  | trapPutsp => exact (serviceStable_pc _).trap (v := 0x24) h rfl
  | _ => cases h; rfl

/-- R182, R183: either call leaves the address after it in R7. -/
theorem call_return_address {i : Instr} {s t : State} (hi : (∃ off, i = .jsr off) ∨ ∃ base, i = .jsrr base)
    (h : exec i s = .next t) : t.getReg 7 = s.pc := by
  rcases hi with ⟨off, rfl⟩ | ⟨base, rfl⟩
  · cases (exec_jsr off s).symm.trans h
    exact (call_leaves s _).1
  · cases (exec_jsrr base s).symm.trans h
    exact (call_leaves s _).1

end Sys2Proof.Machine

open Sys2Proof Sys2Proof.Machine

/-- Settles O41: pc, cc, ir, R1 to R7 and the ordinary cells survive every service; the rest by the vector. -/
theorem trapLeavesPcCcAndRegistersAlone : Obligations.TrapLeavesPcCcAndRegistersAlone := by
  unfold Obligations.TrapLeavesPcCcAndRegistersAlone
  intro v s t hs h
  refine ⟨(serviceStable_pc _).trap h rfl, (serviceStable_cc _).trap h rfl, (serviceStable_ir _).trap h rfl,
    fun r hr => (serviceStable_getReg hr _).trap h rfl,
    fun a h1 h2 => ((serviceStable_cell h1 h2 _).trap h ⟨hs, rfl⟩).2,
    fun hgetc hin => State.getReg_congr (trap_regs h hgetc hin) 0, trap_mem h, trap_queue h,
    fun hhalt hr => ?_, trap_output h⟩
  exact (NoHaltAhead.trap ⟨hr, rfl⟩ h hhalt).2

/-- Settles O10: HALT and a halt request clear `running`; every other operation leaves it. -/
theorem onlyHaltAndTheRelayClearRunning : Obligations.OnlyHaltAndTheRelayClearRunning := by
  unfold Obligations.OnlyHaltAndTheRelayClearRunning
  refine ⟨rfl, rfl, fun s => ⟨_, exec_trapHalt s, rfl⟩, fun _ => rfl, fun s t hs h => step_halted h hs,
    fun i s t hi hs h ht => ?_, fun s t hs h ht => ?_⟩
  · by_contra hne
    obtain ⟨hhalt, hr⟩ := not_or.mp hne
    have hkept := (NoHaltAhead.exec ⟨hr, hs⟩ hi hhalt h).2
    rw [ht] at hkept
    cases hkept
  · by_contra hne
    obtain ⟨hhalt, hr⟩ := not_or.mp hne
    have hkept := (NoHaltAhead.step ⟨hr, hs⟩ (fun ha hd => hhalt ⟨ha, hd⟩) h).2
    rw [ht] at hkept
    cases hkept

/-- Settles O54: instruction by instruction; a trap's by its vector. -/
theorem onlyTheNamedRegisterIsWritten : Obligations.OnlyTheNamedRegisterIsWritten := by
  unfold Obligations.OnlyTheNamedRegisterIsWritten
  exact fun i s t r hi h hr => exec_getReg h hr hi

/-- Settles O56: cc is written with a result, from that result. -/
theorem ccIsWrittenByTheSixInstructionsOnly : Obligations.CcIsWrittenByTheSixInstructionsOnly := by
  unfold Obligations.CcIsWrittenByTheSixInstructionsOnly
  exact ⟨fun i s t _ h hi => exec_cc h hi, fun i s t h hi => exec_cc_of_writesCC h hi⟩

/-- Settles O57: no operation of the other instructions writes pc. -/
theorem pcIsWrittenByControlTransferOnly : Obligations.PcIsWrittenByControlTransferOnly := by
  unfold Obligations.PcIsWrittenByControlTransferOnly
  exact fun i s t _ h hi => exec_pc h hi

/-- Settles O38: a call leaves its return address in R7, and R7 survives every trap service. -/
theorem returnGoesToTheAddressAfterTheCall : Obligations.ReturnGoesToTheAddressAfterTheCall := by
  unfold Obligations.ReturnGoesToTheAddressAfterTheCall
  refine ⟨fun i s t u hi h h7 => ?_, fun v s t h => (serviceStable_getReg (by decide) _).trap h rfl⟩
  rw [exec_ret, h7, call_return_address hi h]
  rfl

end

section
/-! PROOFS. What an instruction does depends on no general register it does not read (10_state.md R21): a relation
kept by every operation. -/

namespace Sys2Proof.Machine

namespace AgreeExcept

variable {r : RegIdx} {s t : State}

/-! ### What agreeing states share -/

theorem reg (h : AgreeExcept r s t) {q : RegIdx} (hq : q ≠ r) : s.getReg q = t.getReg q := h.1 q hq

theorem pc (h : AgreeExcept r s t) : s.pc = t.pc := by rw [h.2]
theorem cc (h : AgreeExcept r s t) : s.cc = t.cc := by rw [h.2]
theorem running (h : AgreeExcept r s t) : s.running = t.running := by rw [h.2]
theorem queue (h : AgreeExcept r s t) : s.queue = t.queue := by rw [h.2]
theorem relay (h : AgreeExcept r s t) : s.relay = t.relay := by rw [h.2]

/-! ### Operations that do not look at the registers -/

/-- An operation that neither reads nor writes the registers keeps agreement. -/
theorem map {f : State → State}
    (hf : ∀ (u : State) (regs : Vector Word 8), f { u with regs := regs } = { f u with regs := regs })
    (h : AgreeExcept r s t) : AgreeExcept r (f s) (f t) := by
  obtain ⟨hreg, hst⟩ := h
  have hregs (u : State) : (f u).regs = u.regs := by
    have hu := congrArg State.regs (hf u u.regs)
    exact hu
  refine ⟨fun q hq => ?_, ?_⟩
  · rw [State.getReg_congr (hregs s), State.getReg_congr (hregs t)]
    exact hreg q hq
  · rw [hregs s]
    exact (congrArg f hst).trans (hf t s.regs)

end AgreeExcept

theorem relayRun_withRegs (l : List RelayEvent) (s : State) (regs : Vector Word 8) :
    relayRun l { s with regs := regs } = { relayRun l s with regs := regs } := by
  induction l generalizing s with
  | nil => rfl
  | cons e l ih =>
    cases e with
    | push c => exact ih (s.relayAct l (.push c))
    | halt => rfl
    | pass => rfl

theorem relayPoint_withRegs (s : State) (regs : Vector Word 8) :
    ({ s with regs := regs } : State).relayPoint = { s.relayPoint with regs := regs } :=
  relayRun_withRegs s.relay s regs

theorem relayAct_withRegs (s : State) (rest : List RelayEvent) (e : RelayEvent) (regs : Vector Word 8) :
    ({ s with regs := regs } : State).relayAct rest e = { s.relayAct rest e with regs := regs } := by
  cases e <;> rfl

theorem deliverPending_withRegs (s : State) (regs : Vector Word 8) :
    ({ s with regs := regs } : State).deliverPending = { s.deliverPending with regs := regs } := by
  unfold State.deliverPending
  dsimp only
  split <;> rfl

theorem memRead_withRegs (s : State) (a : Word) (regs : Vector Word 8) :
    ({ s with regs := regs } : State).memRead a = ((s.memRead a).1, { (s.memRead a).2 with regs := regs }) := by
  unfold State.memRead State.statusRead
  split
  · rw [deliverPending_withRegs]
    rfl
  · split <;> rfl

/-- A read neither looks at the registers nor changes them. -/
theorem blockRead_withRegs (s : State) (a : Word) (regs : Vector Word 8) :
    ({ s with regs := regs } : State).blockRead a = ((s.blockRead a).1, { (s.blockRead a).2 with regs := regs }) := by
  unfold State.blockRead
  split
  · rw [relayPoint_withRegs, memRead_withRegs]
  · rw [memRead_withRegs]

namespace AgreeExcept

variable {r : RegIdx} {s t : State}

theorem relayAct (h : AgreeExcept r s t) (rest : List RelayEvent) (e : RelayEvent) :
    AgreeExcept r (s.relayAct rest e) (t.relayAct rest e) :=
  h.map (f := fun u => u.relayAct rest e) fun u regs => relayAct_withRegs u rest e regs

theorem relayPoint (h : AgreeExcept r s t) : AgreeExcept r s.relayPoint t.relayPoint := h.map relayPoint_withRegs

theorem blockRead (h : AgreeExcept r s t) {a b : Word} (hab : a = b) :
    AgreeExcept r (s.blockRead a).2 (t.blockRead b).2 := by
  subst hab
  exact h.map (f := fun u => (u.blockRead a).2) fun u regs => by rw [blockRead_withRegs]

/-- Agreeing states read the same word. -/
theorem readWord (h : AgreeExcept r s t) {a b : Word} (hab : a = b) : (s.blockRead a).1 = (t.blockRead b).1 := by
  rw [hab, h.2, blockRead_withRegs]

theorem memWrite (h : AgreeExcept r s t) {a b v w : Word} (hab : a = b) (hvw : v = w) :
    AgreeExcept r (s.memWrite a v) (t.memWrite b w) := by
  subst hab hvw
  exact h.map (f := fun u => u.memWrite a v) fun _ _ => rfl

theorem setPc (h : AgreeExcept r s t) {v w : Word} (hvw : v = w) : AgreeExcept r (s.setPc v) (t.setPc w) := by
  subst hvw
  exact h.map (f := fun u => u.setPc v) fun _ _ => rfl

theorem emit (h : AgreeExcept r s t) {c d : Word} (hcd : c = d) : AgreeExcept r (s.emit c) (t.emit d) := by
  subst hcd
  exact h.map (f := fun u => u.emit c) fun _ _ => rfl

theorem setCc (h : AgreeExcept r s t) (cc : CondCode) : AgreeExcept r { s with cc := cc } { t with cc := cc } :=
  h.map (f := fun u => { u with cc := cc }) fun _ _ => rfl

theorem turn (h : AgreeExcept r s t) (act : Activity) :
    AgreeExcept r { s with activity := act } { t with activity := act } :=
  h.map (f := fun u => { u with activity := act }) fun _ _ => rfl

theorem stop (h : AgreeExcept r s t) : AgreeExcept r { s with running := false } { t with running := false } :=
  h.map (f := fun u => { u with running := false }) fun _ _ => rfl

theorem setQueue (h : AgreeExcept r s t) (q : List Word) : AgreeExcept r { s with queue := q } { t with queue := q } :=
  h.map (f := fun u => { u with queue := q }) fun _ _ => rfl

/-! ### Writes of registers and flags -/

theorem setReg (h : AgreeExcept r s t) (i : RegIdx) {v w : Word} (hvw : v = w) :
    AgreeExcept r (s.setReg i v) (t.setReg i w) := by
  subst hvw
  refine ⟨fun q hq => ?_, congrArg (State.setReg · i v) h.2⟩
  rw [State.getReg_setReg, State.getReg_setReg, h.reg hq]

/-- The flags come from the written value, which is the same in both. -/
theorem setResult (h : AgreeExcept r s t) (i : RegIdx) {v w : Word} (hvw : v = w) :
    AgreeExcept r (s.setResult i v) (t.setResult i w) := by
  have hcc (u : State) (x : Word) : u.setResult i x = { u.setReg i x with cc := ccOf x } := by
    rw [State.setResult, State.setFlags, State.getReg_setReg_self]
  rw [hcc, hcc, hvw]
  exact (h.setReg i rfl).setCc _

theorem loadInto (h : AgreeExcept r s t) (dr : RegIdx) {a b : Word} (hab : a = b) :
    AgreeExcept r (s.loadInto dr a) (t.loadInto dr b) :=
  (h.blockRead hab).setResult dr (h.readWord hab)

/-! ### The strings -/

theorem putsLoop (h : AgreeExcept r s t) (n : Nat) (a : Word) :
    AgreeExcept r (putsLoop n a s) (putsLoop n a t) := by
  induction n generalizing a s t with
  | zero => exact h.turn _
  | succ n ih =>
    unfold Machine.putsLoop
    rw [h.readWord rfl]
    split
    · exact (h.blockRead rfl).turn _
    · exact ih ((h.blockRead rfl).emit rfl) _

theorem putspLoop (h : AgreeExcept r s t) (n : Nat) (a : Word) :
    AgreeExcept r (putspLoop n a s) (putspLoop n a t) := by
  induction n generalizing a s t with
  | zero => exact h.turn _
  | succ n ih =>
    unfold Machine.putspLoop
    rw [h.readWord rfl]
    split
    · exact (h.blockRead rfl).turn _
    · split
      · exact ((h.blockRead rfl).emit rfl).turn _
      · exact ih (((h.blockRead rfl).emit rfl).emit rfl) _

end AgreeExcept

/-! ### The wait -/

/-- Two looks at the wait that end alike, in agreeing states. -/
inductive KeyWait.Agree (r : RegIdx) : KeyWait → KeyWait → Prop where
  | key {s t : State} (c : Word) (h : AgreeExcept r s t) : Agree r (.key c s) (.key c t)
  | halted {s t : State} (h : AgreeExcept r s t) : Agree r (.halted s) (.halted t)
  | holding {s t : State} (h : AgreeExcept r s t) : Agree r (.holding s) (.holding t)

namespace AgreeExcept

variable {r : RegIdx} {s t : State}

theorem keyNow (h : AgreeExcept r s t) : s.keyNow.Agree r t.keyNow := by
  cases hrun : t.running with
  | false =>
    rw [keyNow_of_halted (h.running.trans hrun), keyNow_of_halted hrun]
    exact .halted h
  | true =>
    cases hq : t.queue with
    | cons c rest =>
      rw [keyNow_of_key (h.running.trans hrun) (h.queue.trans hq), keyNow_of_key hrun hq]
      exact .key c (h.setQueue rest)
    | nil =>
      rw [keyNow_of_empty (h.running.trans hrun) (h.queue.trans hq), keyNow_of_empty hrun hq]
      exact .holding h

theorem awaitKey (h : AgreeExcept r s t) (l : List RelayEvent) : (awaitKey l s).Agree r (awaitKey l t) := by
  induction l generalizing s t with
  | nil => exact h.keyNow
  | cons e l ih =>
    have hlook := h.keyNow
    unfold Machine.awaitKey
    generalize s.keyNow = w, t.keyNow = w' at hlook
    cases hlook with
    | key c h => exact .key c h
    | halted h => exact .halted h
    | holding h => exact ih (h.relayAct l e)

/-- The wait that GETC and IN begin with. -/
theorem firstLook (h : AgreeExcept r s t) :
    (Machine.awaitKey s.relayPoint.relay s.relayPoint).Agree r (Machine.awaitKey t.relayPoint.relay t.relayPoint) := by
  rw [h.relayPoint.relay]
  exact h.relayPoint.awaitKey _

theorem getcEnd {w w' : KeyWait} (h : w.Agree r w') : AgreeExcept r (getcEnd w) (getcEnd w') := by
  cases h with
  | key c h => exact (h.setReg _ rfl).turn _
  | halted h => exact h.turn _
  | holding h => exact h.turn _

theorem inEnd {w w' : KeyWait} (h : w.Agree r w') : AgreeExcept r (inEnd w) (inEnd w') := by
  cases h with
  | key c h => exact ((h.setReg _ rfl).emit rfl).turn _
  | halted h => exact h.turn _
  | holding h => exact h.turn _

/-! ### Every instruction -/

theorem branchTaken (h : AgreeExcept r s t) (mask : BitVec 3) : s.branchTaken mask = t.branchTaken mask := by
  rw [State.branchTaken, State.branchTaken, h.cc]

theorem exec (h : AgreeExcept r s t) {i : Instr} (hi : i.wellFormed = true) (hr : r ∉ readsRegs i) :
    ∃ s' t', exec i s = .next s' ∧ exec i t = .next t' ∧ AgreeExcept r s' t' := by
  have hread {q : RegIdx} (hq : q ∈ readsRegs i) : s.getReg q = t.getReg q := h.reg fun e => hr (e ▸ hq)
  cases i with
  | br mask off =>
    cases hb : t.branchTaken mask with
    | true =>
      exact ⟨_, _, exec_br_of_taken ((h.branchTaken mask).trans hb) off, exec_br_of_taken hb off,
        h.setPc (congrArg (· + _) h.pc)⟩
    | false =>
      exact ⟨_, _, exec_br_of_not_taken ((h.branchTaken mask).trans hb) off, exec_br_of_not_taken hb off, h⟩
  | addReg dr sr1 sr2 =>
    have h1 : s.getReg sr1 = t.getReg sr1 := hread (by simp [readsRegs])
    have h2 : s.getReg sr2 = t.getReg sr2 := hread (by simp [readsRegs])
    exact ⟨_, _, rfl, rfl, h.setResult dr (congrArg₂ (· + ·) h1 h2)⟩
  | addImm dr sr1 imm => exact ⟨_, _, rfl, rfl, h.setResult dr (congrArg (· + _) (hread (by simp [readsRegs])))⟩
  | andReg dr sr1 sr2 =>
    have h1 : s.getReg sr1 = t.getReg sr1 := hread (by simp [readsRegs])
    have h2 : s.getReg sr2 = t.getReg sr2 := hread (by simp [readsRegs])
    exact ⟨_, _, rfl, rfl, h.setReg dr (congrArg₂ (· &&& ·) h1 h2)⟩
  | andImm dr sr1 imm => exact ⟨_, _, rfl, rfl, h.setReg dr (congrArg (· &&& _) (hread (by simp [readsRegs])))⟩
  | not dr sr => exact ⟨_, _, rfl, rfl, h.setResult dr (congrArg (~~~ ·) (hread (by simp [readsRegs])))⟩
  | ld dr off => exact ⟨_, _, rfl, rfl, h.loadInto dr (congrArg (· + _) h.pc)⟩
  | ldi dr off =>
    have hea : s.pcRel9 off = t.pcRel9 off := congrArg (· + _) h.pc
    exact ⟨_, _, rfl, rfl, (h.blockRead hea).loadInto dr (h.readWord hea)⟩
  | ldr dr base off => exact ⟨_, _, rfl, rfl, h.loadInto dr (congrArg (· + _) (hread (by simp [readsRegs])))⟩
  | lea dr off => exact ⟨_, _, rfl, rfl, h.setResult dr (congrArg (· + _) h.pc)⟩
  | st sr off => exact ⟨_, _, rfl, rfl, h.memWrite (congrArg (· + _) h.pc) (hread (by simp [readsRegs]))⟩
  | sti sr off =>
    have hea : s.pcRel9 off = t.pcRel9 off := congrArg (· + _) h.pc
    have hptr := h.blockRead hea
    exact ⟨_, _, rfl, rfl, hptr.memWrite (h.readWord hea) (hptr.reg fun e => hr (by simp [readsRegs, e]))⟩
  | str sr base off =>
    exact ⟨_, _, rfl, rfl, h.memWrite (congrArg (· + _) (hread (by simp [readsRegs]))) (hread (by simp [readsRegs]))⟩
  | jsr off => exact ⟨_, _, rfl, rfl, (h.setReg 7#3 h.pc).setPc (congrArg (· + _) h.pc)⟩
  | jsrr base =>
    have hcall := h.setReg 7#3 h.pc
    exact ⟨_, _, rfl, rfl, hcall.setPc (hcall.reg fun e => hr (by simp [readsRegs, e]))⟩
  | jmp base => exact ⟨_, _, rfl, rfl, h.setPc (hread (by simp [readsRegs]))⟩
  | ret => exact ⟨_, _, rfl, rfl, h.setPc (hread (by simp [readsRegs]))⟩
  | res8 | res13 => exact ⟨_, _, rfl, rfl, h⟩
  | trap v =>
    have hv : isServiceVector v = false := by simpa [Instr.wellFormed] using hi
    exact ⟨s, t, exec_trap_of_unknown hv s, exec_trap_of_unknown hv t, h⟩
  | trapGetc => exact ⟨_, _, exec_trapGetc s, exec_trapGetc t, getcEnd h.firstLook⟩
  | trapOut => exact ⟨_, _, exec_trapOut s, exec_trapOut t, h.emit (hread (by simp [readsRegs]))⟩
  | trapPuts =>
    refine ⟨_, _, exec_trapPuts s, exec_trapPuts t, ?_⟩
    rw [hread (q := 0) (by simp [readsRegs])]
    exact h.putsLoop _ _
  | trapIn => exact ⟨_, _, exec_trapIn s, exec_trapIn t, inEnd h.firstLook⟩
  | trapPutsp =>
    refine ⟨_, _, exec_trapPutsp s, exec_trapPutsp t, ?_⟩
    rw [hread (q := 0) (by simp [readsRegs])]
    exact h.putspLoop _ _
  | trapHalt => exact ⟨_, _, exec_trapHalt s, exec_trapHalt t, h.stop⟩

end AgreeExcept

end Sys2Proof.Machine

open Sys2Proof Sys2Proof.Machine

/-- Settles O55: agreement but for one register is kept by every operation whose operands agree. -/
theorem onlyTheReadRegistersMatter : Obligations.OnlyTheReadRegistersMatter := by
  unfold Obligations.OnlyTheReadRegistersMatter
  exact fun i s t r hi hr h => h.exec hi hr

end
